-- ==== Sys2Proof/Word.lean ====
section
/-! DEFINITION. The words that move on the block's ports, by width (spec/00_scope.md R7,
spec/30_encoding.md R61). -/

namespace Sys2Proof

/-- A byte: ENC's and DEC's data paths and the wire (R7). -/
abbrev Byte := BitVec 8

/-- A checksum word and the accumulator (R7). -/
abbrev Word32 := BitVec 32

/-- A `DOUT9` output item of the decoder (R65). -/
abbrev DoutItem := BitVec 9

/-- The four command ports (R21, R61). -/
inductive Port where
  /-- `enc_cmd`, format `ENC10` -/
  | enc
  /-- `rx_word`, format `DEC9` -/
  | dec
  /-- `cks_cmd`, format `CKS34` -/
  | cks
  /-- `rsq_cmd`, format `RSQ1` -/
  | rsq
  deriving DecidableEq, Repr

/-- The width of a port's command word (R61). -/
def Port.width : Port → Nat
  | .enc => 10
  | .dec => 9
  | .cks => 34
  | .rsq => 1

/-- A command word together with the port it is offered on: the word alone does not say which unit
takes it, since `ENC10` and `DEC9` share bit patterns (R61). -/
inductive PortWord where
  | enc (w : BitVec 10)
  | dec (w : BitVec 9)
  | cks (w : BitVec 34)
  | rsq (w : BitVec 1)
  deriving DecidableEq, Repr

/-- The port a word is offered on. -/
def PortWord.port : PortWord → Port
  | .enc _ => .enc
  | .dec _ => .dec
  | .cks _ => .cks
  | .rsq _ => .rsq

/-- The word's bits as a number, bit 0 the least significant (R8). -/
def PortWord.toNat : PortWord → Nat
  | .enc w => w.toNat
  | .dec w => w.toNat
  | .cks w => w.toNat
  | .rsq w => w.toNat

end Sys2Proof
end

