-- ==== Sys2Proof/Config.lean ====
section
/-! DEFINITION. What an implementation fixes (the parameters of spec/00_scope.md R6), what the
environment drives in one cycle (the input ports of spec/10_state.md R21), and the free values. -/

namespace Sys2Proof

/-- The parameters of R6. `CYCLES_PER_MS` is kept less one, so that every value of the field is a
legal one ("natural number, at least 1"). -/
structure Params where
  /-- `CYCLES_PER_MS - 1` (D18, open) -/
  cyclesPerMsLessOne : Nat
  /-- `CHECKSUM_MAGIC` (D14, open) -/
  checksumMagic : Word32
  deriving DecidableEq, Repr, Inhabited

/-- `CYCLES_PER_MS`: clock cycles in one millisecond, at least 1 (R6). -/
def Params.cyclesPerMs (p : Params) : Nat := p.cyclesPerMsLessOne + 1

/-- `HOLD_MS`: "hold 50 ms", fixed (R6). -/
def Params.holdMs : Nat := 50

/-- `HOLD_CYCLES = HOLD_MS * CYCLES_PER_MS` (R6). -/
def Params.holdCycles (p : Params) : Nat := Params.holdMs * p.cyclesPerMs

/-- `TW`: the least `n` with `HOLD_CYCLES < 2^n` (R6), written with the binary logarithm. -/
def Params.timerWidth (p : Params) : Nat := Nat.log2 p.holdCycles + 1

/-- Every input port of the block in one cycle (R21), `clk` apart: a step is one edge of it. -/
structure Inputs where
  rst : Bool
  encCmdValid : Bool
  encCmd : BitVec 10
  txReady : Bool
  rxValid : Bool
  rxWord : BitVec 9
  doutReady : Bool
  cksCmdValid : Bool
  cksCmd : BitVec 34
  rsqCmdValid : Bool
  rsqCmd : BitVec 1
  tpIsOpen : Bool
  tpOpenAck : Bool
  tpOpenOk : Bool
  deriving DecidableEq, Repr, Inhabited

/-- The values of the open parameters of R6 in the machine at hand. Free: no proof can see them.
DESIGN CHOICE (log entry 4), safe. -/
opaque Config.params : Params

/-- What the environment drives in cycle `n` when the state lists no inputs for it (R191: the
environment "chooses every input … in every cycle"). Free. DESIGN CHOICE (log entry 1), safe. -/
opaque Config.freeInputs : Nat → Inputs

/-- `tx_data` in cycle `n` when `tx_valid` is 0: "any value" (R23). Free. Log entry 7, safe. -/
opaque Config.idleTxData : Nat → Byte

/-- `dout_word` in cycle `n` when `dout_valid` is 0: "any value" (R26). Free. Log entry 7, safe. -/
opaque Config.idleDoutWord : Nat → DoutItem

end Sys2Proof
end

