-- ==== Sys2Proof/Syntax.lean ====
section
/-! DEFINITION. The commands of the block, one constructor for each row of spec/opcode_table.json.
A `DATA` field the spec calls ignored is kept, so that every port word stands for exactly one
instruction (R63; log entry 13). -/

namespace Sys2Proof

/-- A command word (spec/30_encoding.md R62, R64, R66, R67). -/
inductive Instr where
  /-- `ENC.BYTE b`: escape and send one payload byte (R82). -/
  | encByte (b : Byte)
  /-- `ENC.BEGIN`: open a frame (R81); `DATA` is ignored. -/
  | encBegin (data : Byte)
  /-- `ENC.END`: close a frame (R83); `DATA` is ignored. -/
  | encEnd (data : Byte)
  /-- The reserved encoder opcode (R85); `DATA` is ignored. -/
  | encReserved (data : Byte)
  /-- `DEC.BYTE b`: consume one received wire byte (R102). -/
  | decByte (b : Byte)
  /-- `DEC.END`: the delivery has ended (R103); `DATA` is ignored. -/
  | decEnd (data : Byte)
  /-- `CKS.WORD w`: XOR one word into the accumulator (R131). -/
  | cksWord (w : Word32)
  /-- `CKS.INIT s`: load a caller-supplied seed (R132). -/
  | cksInit (seed : Word32)
  /-- `CKS.INITM`: load the magic seed (R133); `DATA` is ignored. -/
  | cksInitm (data : Word32)
  /-- The reserved checksum opcode (R134); `DATA` is ignored. -/
  | cksReserved (data : Word32)
  /-- `RSQ.ENTER f`: start the bootstrap sequence (R151). -/
  | rsqEnter (flash : Bool)
  deriving DecidableEq, Repr

/-- The port an instruction is offered on (R61). -/
def Instr.port : Instr → Port
  | .encByte _ => .enc
  | .encBegin _ => .enc
  | .encEnd _ => .enc
  | .encReserved _ => .enc
  | .decByte _ => .dec
  | .decEnd _ => .dec
  | .cksWord _ => .cks
  | .cksInit _ => .cks
  | .cksInitm _ => .cks
  | .cksReserved _ => .cks
  | .rsqEnter _ => .rsq

end Sys2Proof
end

