-- ==== Sys2Proof/WellFormed.lean ====
section
/-! DEFINITION. Well-formedness. An `Instr` carries exactly the bits of its format's fields, so every
one is well formed by its type; what can be ill formed is a line of assembler text, whose operands
are numbers (spec/30_encoding.md R70, R71). -/

namespace Sys2Proof

/-- One line of assembler text, its operands the numbers as written (R70), the pseudo-instructions
among them (R71). The reserved opcodes have no spelling. -/
inductive AsmLine where
  | encBegin
  | encByte (b : Nat)
  | encEnd
  | decByte (b : Nat)
  | decEnd
  | cksWord (w : Nat)
  | cksInit (seed : Nat)
  | cksInitm
  | rsqEnter (f : Nat)
  /-- `ENC.FRAME b0, …` -/
  | encFrame (bytes : List Nat)
  /-- `DEC.DELIVERY b0, …` -/
  | decDelivery (bytes : List Nat)
  /-- `CKS.SUM s, w0, …` -/
  | cksSum (seed : Nat) (words : List Nat)
  /-- `CKS.SUMM w0, …` -/
  | cksSumm (words : List Nat)
  /-- `RSQ.FLASH` -/
  | rsqFlash
  /-- `RSQ.RUN` -/
  | rsqRun
  deriving DecidableEq, Repr

/-- A byte operand: 0 to 255 (R70). -/
def byteFits (n : Nat) : Bool := decide (n < 2 ^ 8)

/-- A checksum word or seed: 0 to 2^32-1 (R70). -/
def wordFits (n : Nat) : Bool := decide (n < 2 ^ 32)

/-- The operand of `RSQ.ENTER`: 0 or 1 (R70). -/
def flashFits (n : Nat) : Bool := decide (n < 2)

/-- What an assembler accepts (R70): every operand in its range. -/
def AsmLine.wellFormed : AsmLine → Bool
  | .encBegin => true
  | .encByte b => byteFits b
  | .encEnd => true
  | .decByte b => byteFits b
  | .decEnd => true
  | .cksWord w => wordFits w
  | .cksInit s => wordFits s
  | .cksInitm => true
  | .rsqEnter f => flashFits f
  | .encFrame bs => bs.all byteFits
  | .decDelivery bs => bs.all byteFits
  | .cksSum s ws => wordFits s && ws.all wordFits
  | .cksSumm ws => ws.all wordFits
  | .rsqFlash => true
  | .rsqRun => true

/-- An instruction an assembler writes: not a reserved opcode, and every ignored `DATA` field zero
(R62, R66, R70: "an assembler writes `0x00`"). -/
def Instr.canonical : Instr → Bool
  | .encByte _ => true
  | .encBegin d => d == 0
  | .encEnd d => d == 0
  | .encReserved _ => false
  | .decByte _ => true
  | .decEnd d => d == 0
  | .cksWord _ => true
  | .cksInit _ => true
  | .cksInitm d => d == 0
  | .cksReserved _ => false
  | .rsqEnter _ => true

/-- Every operand lies in its field. True of every `Instr`, because each operand's type has its
field's width (R61: no field is extended or scaled); stated so that statements can name it. -/
def Instr.wellFormed : Instr → Bool
  | .encByte b => byteFits b.toNat
  | .encBegin d => byteFits d.toNat
  | .encEnd d => byteFits d.toNat
  | .encReserved d => byteFits d.toNat
  | .decByte b => byteFits b.toNat
  | .decEnd d => byteFits d.toNat
  | .cksWord w => wordFits w.toNat
  | .cksInit s => wordFits s.toNat
  | .cksInitm d => wordFits d.toNat
  | .cksReserved d => wordFits d.toNat
  | .rsqEnter f => flashFits f.toNat

end Sys2Proof
end

