-- ==== Sys2Proof/Decode.lean ====
section
/-! DEFINITION. Decoding a port word into an instruction, and encoding it back, from the tables of
spec/30_encoding.md R61 to R67. Every word of every port decodes (R69); a number wider than its port
is rejected by name. -/

namespace Sys2Proof

/-! ### Fields (R61) -/

/-- `OP = [9:8]` of `ENC10`. -/
def enc10Op (w : BitVec 10) : BitVec 2 := w.extractLsb' 8 2
/-- `DATA = [7:0]` of `ENC10`. -/
def enc10Data (w : BitVec 10) : Byte := w.extractLsb' 0 8
/-- `KIND = [8]` of `DEC9`. -/
def dec9Kind (w : BitVec 9) : BitVec 1 := w.extractLsb' 8 1
/-- `DATA = [7:0]` of `DEC9`. -/
def dec9Data (w : BitVec 9) : Byte := w.extractLsb' 0 8
/-- `OP = [33:32]` of `CKS34`. -/
def cks34Op (w : BitVec 34) : BitVec 2 := w.extractLsb' 32 2
/-- `DATA = [31:0]` of `CKS34`. -/
def cks34Data (w : BitVec 34) : Word32 := w.extractLsb' 0 32
/-- `FLASH = [0]` of `RSQ1`. -/
def rsq1Flash (w : BitVec 1) : Bool := w.getLsbD 0

/-! ### Decoding -/

/-- `ENC10` (R62). -/
def decodeEnc10 (w : BitVec 10) : Instr :=
  if enc10Op w = 0b00#2 then .encByte (enc10Data w)
  else if enc10Op w = 0b01#2 then .encBegin (enc10Data w)
  else if enc10Op w = 0b10#2 then .encEnd (enc10Data w)
  else .encReserved (enc10Data w)

/-- `DEC9` (R64). -/
def decodeDec9 (w : BitVec 9) : Instr :=
  if dec9Kind w = 0#1 then .decByte (dec9Data w) else .decEnd (dec9Data w)

/-- `CKS34` (R66). -/
def decodeCks34 (w : BitVec 34) : Instr :=
  if cks34Op w = 0b00#2 then .cksWord (cks34Data w)
  else if cks34Op w = 0b01#2 then .cksInit (cks34Data w)
  else if cks34Op w = 0b10#2 then .cksInitm (cks34Data w)
  else .cksReserved (cks34Data w)

/-- `RSQ1` (R67). -/
def decodeRsq1 (w : BitVec 1) : Instr := .rsqEnter (rsq1Flash w)

/-- The instruction a port word stands for: total, since no port has a word without a meaning
(R69). -/
def decode : PortWord → Instr
  | .enc w => decodeEnc10 w
  | .dec w => decodeDec9 w
  | .cks w => decodeCks34 w
  | .rsq w => decodeRsq1 w

/-- Why a number is no word of a port. -/
inductive DecodeError where
  /-- a bit above the port's width is set (R61: "Every format has a fixed width") -/
  | wordTooWide (p : Port)
  deriving DecidableEq, Repr

/-- A number as a word of a port. -/
def portWord (p : Port) (n : Nat) : Except DecodeError PortWord :=
  if n < 2 ^ p.width then
    match p with
    | .enc => .ok (.enc (BitVec.ofNat 10 n))
    | .dec => .ok (.dec (BitVec.ofNat 9 n))
    | .cks => .ok (.cks (BitVec.ofNat 34 n))
    | .rsq => .ok (.rsq (BitVec.ofNat 1 n))
  else .error (.wordTooWide p)

/-- Decode any number offered as a word of a port. -/
def decodeNat (p : Port) (n : Nat) : Except DecodeError Instr :=
  match portWord p n with
  | .ok w => .ok (decode w)
  | .error e => .error e

/-! ### Encoding, from the same tables -/

/-- `{OP, DATA}` of `ENC10`. -/
def enc10Word (op : BitVec 2) (data : Byte) : BitVec 10 := op ++ data
/-- `{KIND, DATA}` of `DEC9`. -/
def dec9Word (kind : BitVec 1) (data : Byte) : BitVec 9 := kind ++ data
/-- `{OP, DATA}` of `CKS34`. -/
def cks34Word (op : BitVec 2) (data : Word32) : BitVec 34 := op ++ data

/-- The port word of an instruction (R62, R64, R66, R67). -/
def encode : Instr → PortWord
  | .encByte b => .enc (enc10Word 0b00#2 b)
  | .encBegin d => .enc (enc10Word 0b01#2 d)
  | .encEnd d => .enc (enc10Word 0b10#2 d)
  | .encReserved d => .enc (enc10Word 0b11#2 d)
  | .decByte b => .dec (dec9Word 0#1 b)
  | .decEnd d => .dec (dec9Word 1#1 d)
  | .cksWord w => .cks (cks34Word 0b00#2 w)
  | .cksInit s => .cks (cks34Word 0b01#2 s)
  | .cksInitm d => .cks (cks34Word 0b10#2 d)
  | .cksReserved d => .cks (cks34Word 0b11#2 d)
  | .rsqEnter f => .rsq (BitVec.ofBool f)

/-! ### The opcode table, row by row (spec/opcode_table.json) -/

/-- A row: its port, mnemonic, match and mask. -/
structure OpcodeRow where
  port : Port
  mnemonic : String
  matchBits : Nat
  mask : Nat
  deriving DecidableEq, Repr

/-- The eleven rows, in the table's order. -/
def opcodeTable : List OpcodeRow :=
  [ ⟨.enc, "ENC.BYTE", 0x000, 0x300⟩,
    ⟨.enc, "ENC.BEGIN", 0x100, 0x300⟩,
    ⟨.enc, "ENC.END", 0x200, 0x300⟩,
    ⟨.enc, "ENC.RESERVED", 0x300, 0x300⟩,
    ⟨.dec, "DEC.BYTE", 0x000, 0x100⟩,
    ⟨.dec, "DEC.END", 0x100, 0x100⟩,
    ⟨.cks, "CKS.WORD", 0x000000000, 0x300000000⟩,
    ⟨.cks, "CKS.INIT", 0x100000000, 0x300000000⟩,
    ⟨.cks, "CKS.INITM", 0x200000000, 0x300000000⟩,
    ⟨.cks, "CKS.RESERVED", 0x300000000, 0x300000000⟩,
    ⟨.rsq, "RSQ.ENTER", 0x0, 0x0⟩ ]

/-- A word matches a row of its own port when its masked bits are the row's. -/
def OpcodeRow.hits (r : OpcodeRow) (w : PortWord) : Bool :=
  decide (r.port = w.port) && decide (w.toNat &&& r.mask = r.matchBits)

/-- The mnemonic of an instruction, as the table spells it. -/
def mnemonic : Instr → String
  | .encByte _ => "ENC.BYTE"
  | .encBegin _ => "ENC.BEGIN"
  | .encEnd _ => "ENC.END"
  | .encReserved _ => "ENC.RESERVED"
  | .decByte _ => "DEC.BYTE"
  | .decEnd _ => "DEC.END"
  | .cksWord _ => "CKS.WORD"
  | .cksInit _ => "CKS.INIT"
  | .cksInitm _ => "CKS.INITM"
  | .cksReserved _ => "CKS.RESERVED"
  | .rsqEnter _ => "RSQ.ENTER"

/-! ### Words as the host's table numbers them -/

/-- The port meant by a row of `nbits` bits: the format's own width (10, 9, 34, 1), or that width in
whole bytes (16, 40, 8). `ENC10` and `DEC9` both fill two bytes and share words, and a table word
does not name its port: two bytes are read as `ENC10`. DESIGN CHOICE (log entry 9), safe: the step
takes the port from the handshake, never from this function. -/
def tablePort (nbits : Nat) : Option Port :=
  if nbits = 10 ∨ nbits = 16 then some .enc
  else if nbits = 9 then some .dec
  else if nbits = 34 ∨ nbits = 40 then some .cks
  else if nbits = 1 ∨ nbits = 8 then some .rsq
  else none

/-- The port word that a table row's bits make. -/
def tableWord (nbits w : Nat) : Option PortWord :=
  match tablePort nbits with
  | some p => (portWord p w).toOption
  | none => none

/-- The instruction the decoder reads from a table row's bits. -/
def decodeTableWord (nbits w : Nat) : Option Instr := (tableWord nbits w).map decode

end Sys2Proof
end

