-- ==== Sys2Proof/Machine/State.lean ====
section
/-! DEFINITION. The state of the block: every element of spec/10_state.md R33, the two output
sequences of spec/00_scope.md R10, and the model's own fields (the parameters, the environment's
coming inputs, the cycle counter). -/

namespace Sys2Proof.Machine

/-- `ENC.in_frame`, `ENC.buf` and the sticky bits (R22, R23, R24). -/
structure Enc where
  inFrame : Bool
  /-- wire bytes not yet taken by `tx`, the next to leave first (R23) -/
  buf : List Byte
  /-- sticky `SEQERR` (R84) -/
  seqerr : Bool
  /-- sticky `ILLOP` (R85) -/
  illop : Bool
  deriving DecidableEq, Repr

/-- `DEC.phase` (R25). -/
inductive DecPhase where
  | header
  | body
  | escape
  | skip
  deriving DecidableEq, Repr

/-- `DEC.phase` and `DEC.obuf` (R25, R26). -/
structure Dec where
  phase : DecPhase
  /-- the output register: empty or one item -/
  obuf : Option DoutItem
  deriving DecidableEq, Repr

/-- `CKS.acc` and the sticky bit (R28, R29). -/
structure Cks where
  acc : Word32
  /-- sticky `ILLOP` (R134) -/
  illop : Bool
  deriving DecidableEq, Repr

/-- `RSQ.phase` (R30); the codes 4 to 7 are never reached and are left out, as R30 allows. -/
inductive RsqPhase where
  | idle
  | openWait
  | holdReset
  | holdTarget
  deriving DecidableEq, Repr

/-- `RSQ.result` (R31): 0 OK, 1 `TransportError`. -/
inductive RsqResult where
  | ok
  | transportError
  deriving DecidableEq, Repr

/-- The reset sequencer (R30, R31). -/
structure Rsq where
  phase : RsqPhase
  /-- cycles left in the current hold phase; a count of `TW` bits (log entry 5) -/
  timer : Nat
  flash : Bool
  dtr : Bool
  rts : Bool
  openReq : Bool
  result : RsqResult
  done : Bool
  deriving DecidableEq, Repr

/-- The whole machine. -/
structure State where
  enc : Enc
  dec : Dec
  cks : Cks
  rsq : Rsq
  /-- the `tx` output sequence since reset, oldest first (R10) -/
  txOut : List Byte
  /-- the `dout` output sequence since reset, oldest first (R10) -/
  doutOut : List DoutItem
  /-- the parameters of R6; no step changes them (log entry 4) -/
  cfg : Params
  /-- what the environment drives in the coming cycles, the next cycle first (log entry 1) -/
  inputs : List Inputs
  /-- the number of edges so far: the argument of the free values (log entries 1, 12) -/
  cycle : Nat
  deriving DecidableEq, Repr

/-- Why the machine stops with a fault: never. The block "has no trap mechanism" (R180); each of its
errors is a result item, a result bit or a sticky bit, and the machine goes on (log entry 11, safe). -/
inductive Fault where
  deriving DecidableEq, Repr

/-- Why an instruction has no meaning. -/
inductive Refusal where
  /-- raised by an arm of `exec` that has no meaning yet; safe (no arm is one) -/
  | notModelled (mnemonic : String)
  deriving DecidableEq, Repr

/-- ENC after reset (R33). -/
def Enc.reset : Enc := { inFrame := false, buf := [], seqerr := false, illop := false }

/-- DEC after reset (R33). -/
def Dec.reset : Dec := { phase := .header, obuf := none }

/-- CKS after reset: the accumulator holds `CHECKSUM_MAGIC` (R28, R33). -/
def Cks.reset (p : Params) : Cks := { acc := p.checksumMagic, illop := false }

/-- RSQ after reset (R33). -/
def Rsq.reset : Rsq :=
  { phase := .idle, timer := 0, flash := false, dtr := false, rts := false, openReq := false,
    result := .ok, done := false }

/-- The machine right after a reset edge, for given parameters. -/
def State.resetFor (p : Params) : State :=
  { enc := Enc.reset, dec := Dec.reset, cks := Cks.reset p, rsq := Rsq.reset,
    txOut := [], doutOut := [], cfg := p, inputs := [], cycle := 0 }

/-- The machine right after reset (R33, R203). Its parameters are the free `Config.params`, and its
environment is free: it lists no inputs. -/
def State.reset : State := State.resetFor Config.params

/-- The inputs of the present cycle: the first listed, or the free value once none is listed
(R191; log entry 1). -/
def State.now (s : State) : Inputs :=
  match s.inputs with
  | i :: _ => i
  | [] => Config.freeInputs s.cycle

end Sys2Proof.Machine
end

