-- ==== Sys2Proof/Machine/Operands.lean ====
section
/-! DEFINITION. The forms in which data enters and leaves the units: the special SLIP bytes
(spec/00_scope.md R12), the escape map (spec/30_encoding.md R68), and the decoder's output items
(R65). -/

namespace Sys2Proof.Machine

/-- `DELIM`: opens and closes a frame (R12). -/
def slipDelim : Byte := 0xC0#8
/-- `ESC`: starts a two-byte escape sequence (R12). -/
def slipEsc : Byte := 0xDB#8
/-- `ESC_DELIM`: after `ESC`, a literal `0xC0` (R12). -/
def slipEscDelim : Byte := 0xDC#8
/-- `ESC_ESC`: after `ESC`, a literal `0xDB` (R12). -/
def slipEscEsc : Byte := 0xDD#8

/-- The wire bytes of one payload byte (R68, the map `esc`). -/
def escapeByte (b : Byte) : List Byte :=
  if b = slipDelim then [slipEsc, slipEscDelim]
  else if b = slipEsc then [slipEsc, slipEscEsc]
  else [b]

/-- The outcome of one delivery (R65, R181). -/
inductive DecodeResult where
  | ok
  | frameMissingHeader
  | invalidEscapeSequence
  | unterminatedFrame
  deriving DecidableEq, Repr

/-- The result code, `DATA` of a result item (R65: `DATA[7:2]` is 0). -/
def resultCode : DecodeResult → Byte
  | .ok => 0#8
  | .frameMissingHeader => 1#8
  | .invalidEscapeSequence => 2#8
  | .unterminatedFrame => 3#8

/-- `{KIND, DATA}` of `DOUT9` (R61). -/
def dout9 (kind : BitVec 1) (data : Byte) : DoutItem := kind ++ data

/-- `BYTE(v)`: a payload byte (R65, R102). -/
def doutByte (b : Byte) : DoutItem := dout9 0#1 b

/-- `RESULT(c)`: the outcome of a delivery (R65, R102). -/
def doutResult (r : DecodeResult) : DoutItem := dout9 1#1 (resultCode r)

/-- `KIND` of a `DOUT9` item (R61). -/
def dout9Kind (x : DoutItem) : BitVec 1 := x.extractLsb' 8 1
/-- `DATA` of a `DOUT9` item (R61). -/
def dout9Data (x : DoutItem) : Byte := x.extractLsb' 0 8

end Sys2Proof.Machine
end

