-- ==== Sys2Proof/Machine/Flags.lean ====
section
/-! DEFINITION. The status words (spec/10_state.md R24, R27, R29, R32) and the valid and ready
signals (spec/40_slip_encoder.md R90, R91; 41_slip_decoder.md R110, R112; 42_checksum.md R138;
43_reset_sequencer.md R150). -/

namespace Sys2Proof.Machine

/-! ### Valid and ready -/

/-- `tx_valid = (len(ENC.buf) != 0)` (R91). -/
def txValid (s : State) : Bool := s.enc.buf.length != 0

/-- `dout_valid`: `DEC.obuf` is non-empty (R110). -/
def doutValid (s : State) : Bool := s.dec.obuf.isSome

/-- `enc_cmd_ready` (R90). -/
def encCmdReady (s : State) : Bool :=
  !s.now.rst && (s.enc.buf.length == 0 || (s.enc.buf.length == 1 && s.now.txReady))

/-- `rx_ready` (R112). -/
def rxReady (s : State) : Bool := !s.now.rst && (s.dec.obuf.isNone || s.now.doutReady)

/-- `cks_cmd_ready = (rst == 0)` (R138). -/
def cksCmdReady (s : State) : Bool := !s.now.rst

/-- `rsq_cmd_ready = (rst == 0) && (RSQ.phase == IDLE)` (R150). -/
def rsqCmdReady (s : State) : Bool := !s.now.rst && s.rsq.phase == .idle

/-! ### Status words, the most significant bit first -/

/-- `enc_status = {ILLOP, SEQERR, BUSY, IN_FRAME}` (R24). -/
def encStatus (e : Enc) : BitVec 4 :=
  BitVec.ofBool e.illop ++ BitVec.ofBool e.seqerr ++ BitVec.ofBool (e.buf.length != 0)
    ++ BitVec.ofBool e.inFrame

/-- The code of `DEC.phase` (R25). -/
def decPhaseCode : DecPhase → BitVec 2
  | .header => 0#2
  | .body => 1#2
  | .escape => 2#2
  | .skip => 3#2

/-- `dec_status = {OBUF_FULL, PHASE}` (R27). -/
def decStatus (d : Dec) : BitVec 3 := BitVec.ofBool d.obuf.isSome ++ decPhaseCode d.phase

/-- `cks_status = ILLOP` (R29). -/
def cksStatus (c : Cks) : BitVec 1 := BitVec.ofBool c.illop

/-- The code of `RSQ.phase` (R30). -/
def rsqPhaseCode : RsqPhase → BitVec 3
  | .idle => 0#3
  | .openWait => 1#3
  | .holdReset => 2#3
  | .holdTarget => 3#3

/-- The bit of `RSQ.result` (R31). -/
def rsqResultBit : RsqResult → Bool
  | .ok => false
  | .transportError => true

/-- `rsq_status = {DONE, RESULT, RTS, DTR, FLASH, PHASE}` (R32). -/
def rsqStatus (r : Rsq) : BitVec 8 :=
  BitVec.ofBool r.done ++ BitVec.ofBool (rsqResultBit r.result) ++ BitVec.ofBool r.rts
    ++ BitVec.ofBool r.dtr ++ BitVec.ofBool r.flash ++ rsqPhaseCode r.phase

end Sys2Proof.Machine
end

