-- ==== Sys2Proof/Machine/Ops.lean ====
section
/-! DEFINITION. The shared operations: replacing one unit's part of the state, what each `raise` does
(spec/60_exceptions.md R180, R181), the acceptance of a command by its unit, and what a clock edge
does to each unit apart from an accepted command. -/

namespace Sys2Proof.Machine

/-! ### One unit's part of the state (the units share none: spec/20_memory.md R56) -/

def State.withEnc (s : State) (e : Enc) : State := { s with enc := e }
def State.withDec (s : State) (d : Dec) : State := { s with dec := d }
def State.withCks (s : State) (c : Cks) : State := { s with cks := c }
def State.withRsq (s : State) (r : Rsq) : State := { s with rsq := r }
def State.withTxOut (s : State) (bs : List Byte) : State := { s with txOut := bs }
def State.withDoutOut (s : State) (xs : List DoutItem) : State := { s with doutOut := xs }

/-! ### ENC -/

/-- A command enters ENC once every earlier byte has left: "the buffer is empty when a command is
accepted" (R84, R90). Until then the word is not taken and has no effect (R60; log entry 3). -/
def encTake (command : Enc → Enc) (e : Enc) : Enc := if e.buf.isEmpty then command e else e

/-- Load the wire bytes of a command (R81 to R83). -/
def encSend (bytes : List Byte) (e : Enc) : Enc := { e with buf := bytes }

/-- `raise SequenceError`: `ENC.seqerr <- 1`; nothing else changes (R84). -/
def encRaiseSequence (e : Enc) : Enc := { e with seqerr := true }

/-- `raise IllegalOpcode` in ENC: `ENC.illop <- 1`; nothing else changes (R85). -/
def encRaiseIllegal (e : Enc) : Enc := { e with illop := true }

/-! ### DEC -/

/-- A word enters DEC once the earlier item has left (R112). Until then the word is not taken and has
no effect (R60; log entry 3). -/
def decTake (command : Dec → Dec) (d : Dec) : Dec := if d.obuf.isNone then command d else d

/-- `Emit(dout, x)` loads `x` into `DEC.obuf` (R102). -/
def decEmit (x : DoutItem) (d : Dec) : Dec := { d with obuf := some x }

/-- Move `DEC.phase`. -/
def decGoto (p : DecPhase) (d : Dec) : Dec := { d with phase := p }

/-- End the delivery's decoding with a result item: the rest of it is skipped (R102, R182). -/
def decFinish (r : DecodeResult) (d : Dec) : Dec := decGoto .skip (decEmit (doutResult r) d)

/-! ### CKS -/

/-- `raise IllegalOpcode` in CKS: `CKS.illop <- 1`; `CKS.acc` is unchanged (R134). -/
def cksRaiseIllegal (c : Cks) : Cks := { c with illop := true }

/-! ### RSQ -/

/-- A command enters RSQ only in `IDLE` (R150). Otherwise the word waits and has no effect (R60;
log entry 3). -/
def rsqTake (command : Rsq → Rsq) (r : Rsq) : Rsq := if r.phase = .idle then command r else r

/-- Enter `HOLD_RESET`, the reset condition DTR=0 RTS=1 (R151, R153: source step 2). -/
def rsqHoldReset (p : Params) (r : Rsq) : Rsq :=
  { r with dtr := false, rts := true, timer := p.holdCycles, phase := .holdReset }

/-- Enter `HOLD_TARGET`, the target condition DTR=`flash` RTS=0 (R154: source step 3). -/
def rsqHoldTarget (p : Params) (r : Rsq) : Rsq :=
  { r with dtr := r.flash, rts := false, timer := p.holdCycles, phase := .holdTarget }

/-- Release and complete: DTR=0, RTS as last set (R156: source step 4). -/
def rsqRelease (r : Rsq) : Rsq :=
  { r with dtr := false, timer := 0, result := .ok, done := true, phase := .idle }

/-- `raise TransportError`: the sequence ends and the lines are not touched (R153, R183). -/
def rsqRaiseTransport (r : Rsq) : Rsq :=
  { r with result := .transportError, done := true, phase := .idle }

/-- `RSQ.timer - 1` in a register of `TW` bits. The rules never take it at 0 (R154: "never wraps");
the wrap is the register's (log entry 5). -/
def rsqTimerPred (p : Params) (t : Nat) : Nat := if t = 0 then 2 ^ p.timerWidth - 1 else t - 1

/-- Count one cycle of a hold (R154, R155). -/
def rsqCount (p : Params) (r : Rsq) : Rsq := { r with timer := rsqTimerPred p r.timer }

/-- `RSQ.done <- 0`, as every edge writes it that does not complete a sequence (R157). -/
def rsqClearDone (r : Rsq) : Rsq := { r with done := false }

/-- RSQ at an edge outside reset at which it accepts no command (R152 to R157). -/
def rsqEdge (p : Params) (i : Inputs) (r : Rsq) : Rsq :=
  match r.phase with
  | .idle => rsqClearDone r
  | .openWait =>
    if i.tpOpenAck then
      if i.tpOpenOk then rsqHoldReset p { rsqClearDone r with openReq := false }
      else rsqRaiseTransport { r with openReq := false }
    else rsqClearDone r
  | .holdReset =>
    if r.timer = 1 then rsqHoldTarget p (rsqClearDone r) else rsqCount p (rsqClearDone r)
  | .holdTarget =>
    if r.timer = 1 then rsqRelease r else rsqCount p (rsqClearDone r)

/-! ### What an edge outside reset does apart from the accepted commands -/

/-- The `tx` handshake: the head of `ENC.buf` leaves and joins the output sequence (R91). -/
def txEdge (s : State) : State :=
  match s.enc.buf with
  | b :: rest =>
    if s.now.txReady then (s.withEnc { s.enc with buf := rest }).withTxOut (s.txOut ++ [b]) else s
  | [] => s

/-- The `dout` handshake: the item leaves `DEC.obuf` and joins the output sequence (R110, R111). -/
def doutEdge (s : State) : State :=
  match s.dec.obuf with
  | some x =>
    if s.now.doutReady then
      (s.withDec { s.dec with obuf := none }).withDoutOut (s.doutOut ++ [x])
    else s
  | none => s

/-- RSQ's own step (R152 to R157). -/
def sequencerEdge (s : State) : State := s.withRsq (rsqEdge s.cfg s.now s.rsq)

/-- The edge before its accepted commands: the outputs leave first (R187 point 6). -/
def quietEdge (s : State) : State := sequencerEdge (doutEdge (txEdge s))

/-- The cycle is over: its inputs are used up. -/
def State.advance (s : State) : State := { s with inputs := s.inputs.tail, cycle := s.cycle + 1 }

/-- An edge with `rst == 1`: every state element takes its reset value, whatever the other inputs
(R200), and the output sequences begin anew (R10: "since reset"). The parameters stay, and so do the
environment's later inputs. -/
def resetEdge (s : State) : State :=
  { State.resetFor s.cfg with inputs := s.inputs, cycle := s.cycle }

end Sys2Proof.Machine
end

