-- ==== Sys2Proof/Machine/Checksum.lean ====
section
/-! DEFINITION. The checksum engine's commands (spec/42_checksum.md R131 to R134). CKS takes a
command in every cycle outside reset (R138), so no command waits. -/

namespace Sys2Proof.Machine

/-- The effect of `CKS.WORD w`: `CKS.acc <- CKS.acc ^ w` (R131). -/
def cksWord (w : Word32) (c : Cks) : Cks := { c with acc := c.acc ^^^ w }

/-- Load a seed: `CKS.acc <- s` (R132, R133). -/
def cksLoad (seed : Word32) (c : Cks) : Cks := { c with acc := seed }

/-- `CKS.WORD w` (R131). -/
def execCksWord (w : Word32) (s : State) : Host.Outcome State Fault Refusal :=
  .next (s.withCks (cksWord w s.cks))

/-- `CKS.INIT s` (R132). -/
def execCksInit (seed : Word32) (s : State) : Host.Outcome State Fault Refusal :=
  .next (s.withCks (cksLoad seed s.cks))

/-- `CKS.INITM`: the seed is `CHECKSUM_MAGIC`; `DATA` is ignored for every value (R133). -/
def execCksInitm (_data : Word32) (s : State) : Host.Outcome State Fault Refusal :=
  .next (s.withCks (cksLoad s.cfg.checksumMagic s.cks))

/-- The reserved checksum opcode (R134). -/
def execCksReserved (_data : Word32) (s : State) : Host.Outcome State Fault Refusal :=
  .next (s.withCks (cksRaiseIllegal s.cks))

end Sys2Proof.Machine
end

