-- ==== Sys2Proof/Machine/Decoder.lean ====
section
/-! DEFINITION. The SLIP decoder's input words (spec/41_slip_decoder.md R102, R103). -/

namespace Sys2Proof.Machine

/-- The effect of an accepted `DEC.BYTE b`, by phase (R102). -/
def decByte (b : Byte) (d : Dec) : Dec :=
  match d.phase with
  | .header => if b = slipDelim then decGoto .body d else decFinish .frameMissingHeader d
  | .body =>
    if b = slipDelim then decFinish .ok d
    else if b = slipEsc then decGoto .escape d
    else decEmit (doutByte b) d
  | .escape =>
    if b = slipEscDelim then decGoto .body (decEmit (doutByte slipDelim) d)
    else if b = slipEscEsc then decGoto .body (decEmit (doutByte slipEsc) d)
    else decFinish .invalidEscapeSequence d
  | .skip => d

/-- The effect of an accepted `DEC.END`, by phase (R103). -/
def decEnd (d : Dec) : Dec :=
  decGoto .header
    (match d.phase with
     | .header => decEmit (doutResult .frameMissingHeader) d
     | .body => decEmit (doutResult .unterminatedFrame) d
     | .escape => decEmit (doutResult .unterminatedFrame) d
     | .skip => d)

/-- `DEC.BYTE b` offered to DEC (R102). -/
def execDecByte (b : Byte) (s : State) : Host.Outcome State Fault Refusal :=
  .next (s.withDec (decTake (decByte b) s.dec))

/-- `DEC.END` offered to DEC (R103); `DATA` is ignored for every value (R64). -/
def execDecEnd (_data : Byte) (s : State) : Host.Outcome State Fault Refusal :=
  .next (s.withDec (decTake decEnd s.dec))

end Sys2Proof.Machine
end

