-- ==== Sys2Proof/Machine/Encoder.lean ====
section
/-! DEFINITION. The SLIP encoder's commands (spec/40_slip_encoder.md R81 to R85). -/

namespace Sys2Proof.Machine

/-- The effect of an accepted `ENC.BYTE b` (R82). -/
def encByte (b : Byte) (e : Enc) : Enc :=
  if e.inFrame then
    if b = slipDelim then encSend [slipEsc, slipEscDelim] e
    else if b = slipEsc then encSend [slipEsc, slipEscEsc] e
    else encSend [b] e
  else encRaiseSequence e

/-- The effect of an accepted `ENC.BEGIN` (R81). -/
def encBegin (e : Enc) : Enc :=
  if e.inFrame then encRaiseSequence e
  else { encSend [slipDelim] e with inFrame := true }

/-- The effect of an accepted `ENC.END` (R83). -/
def encEnd (e : Enc) : Enc :=
  if e.inFrame then { encSend [slipDelim] e with inFrame := false }
  else encRaiseSequence e

/-- `ENC.BYTE b` offered to ENC (R82). -/
def execEncByte (b : Byte) (s : State) : Host.Outcome State Fault Refusal :=
  .next (s.withEnc (encTake (encByte b) s.enc))

/-- `ENC.BEGIN` offered to ENC (R81); `DATA` is ignored for every value (R63). -/
def execEncBegin (_data : Byte) (s : State) : Host.Outcome State Fault Refusal :=
  .next (s.withEnc (encTake encBegin s.enc))

/-- `ENC.END` offered to ENC (R83); `DATA` is ignored for every value (R63). -/
def execEncEnd (_data : Byte) (s : State) : Host.Outcome State Fault Refusal :=
  .next (s.withEnc (encTake encEnd s.enc))

/-- The reserved opcode offered to ENC: only `ILLOP` is set, whatever `ENC.in_frame` is (R85). -/
def execEncReserved (_data : Byte) (s : State) : Host.Outcome State Fault Refusal :=
  .next (s.withEnc (encTake encRaiseIllegal s.enc))

end Sys2Proof.Machine
end

