-- ==== Sys2Proof/Machine/Sequencer.lean ====
section
/-! DEFINITION. The reset sequencer's command (spec/43_reset_sequencer.md R151). The steps it takes by
itself are `rsqEdge` of Ops.lean (R152 to R157). -/

namespace Sys2Proof.Machine

/-- The effect of an accepted `RSQ.ENTER f`; `tp_is_open` is sampled at this edge only (R151,
R159). -/
def rsqEnter (p : Params) (tpIsOpen : Bool) (flash : Bool) (r : Rsq) : Rsq :=
  if tpIsOpen then rsqHoldReset p { rsqClearDone r with flash := flash }
  else { rsqClearDone r with flash := flash, openReq := true, phase := .openWait }

/-- `RSQ.ENTER f` offered to RSQ (R151). -/
def execRsqEnter (flash : Bool) (s : State) : Host.Outcome State Fault Refusal :=
  .next (s.withRsq (rsqTake (rsqEnter s.cfg s.now.tpIsOpen flash) s.rsq))

end Sys2Proof.Machine
end

