-- ==== Sys2Proof/Machine/Dispatch.lean ====
section
/-! DEFINITION. The meaning of every instruction, one arm per constructor: the command offered to its
unit at the transaction level (spec/00_scope.md R10). -/

namespace Sys2Proof.Machine

def exec (i : Instr) (s : State) : Host.Outcome State Fault Refusal :=
  match i with
  | .encByte b => Sys2Proof.Machine.execEncByte b s
  | .encBegin d => Sys2Proof.Machine.execEncBegin d s
  | .encEnd d => Sys2Proof.Machine.execEncEnd d s
  | .encReserved d => Sys2Proof.Machine.execEncReserved d s
  | .decByte b => Sys2Proof.Machine.execDecByte b s
  | .decEnd d => Sys2Proof.Machine.execDecEnd d s
  | .cksWord w => Sys2Proof.Machine.execCksWord w s
  | .cksInit w => Sys2Proof.Machine.execCksInit w s
  | .cksInitm d => Sys2Proof.Machine.execCksInitm d s
  | .cksReserved d => Sys2Proof.Machine.execCksReserved d s
  | .rsqEnter f => Sys2Proof.Machine.execRsqEnter f s

end Sys2Proof.Machine
end

