-- ==== Sys2Proof/Machine/Cycle.lean ====
section
/-! DEFINITION. One clock edge of the whole block: which commands are accepted in the present cycle
(spec/30_encoding.md R60), and their effects beside what the edge does to every unit (R91, R111, R138,
R150 to R157); the block's output ports (spec/10_state.md R21). -/

namespace Sys2Proof.Machine

/-! ### Accepted commands: valid and ready in this cycle (R60) -/

/-- The command ENC accepts in this cycle (R90). -/
def acceptedEnc (s : State) : List Instr :=
  if s.now.encCmdValid && encCmdReady s then [decode (.enc s.now.encCmd)] else []

/-- The word DEC accepts in this cycle (R111, R112). -/
def acceptedDec (s : State) : List Instr :=
  if s.now.rxValid && rxReady s then [decode (.dec s.now.rxWord)] else []

/-- The command CKS accepts in this cycle (R138). -/
def acceptedCks (s : State) : List Instr :=
  if s.now.cksCmdValid && cksCmdReady s then [decode (.cks s.now.cksCmd)] else []

/-- The command RSQ accepts in this cycle (R150). -/
def acceptedRsq (s : State) : List Instr :=
  if s.now.rsqCmdValid && rsqCmdReady s then [decode (.rsq s.now.rsqCmd)] else []

/-- Every command accepted in this cycle, at most one for each unit. The units share no state (R56),
so the order of the list does not matter (log entry 2). -/
def accepted (s : State) : List Instr :=
  acceptedEnc s ++ acceptedDec s ++ acceptedCks s ++ acceptedRsq s

/-! ### The edge -/

/-- Run commands one after another, stopping where one stops. -/
def execAll : List Instr → State → Host.Outcome State Fault Refusal
  | [], s => .next s
  | i :: is, s =>
    match exec i s with
    | .next t => execAll is t
    | .fault r => .fault r
    | .refused r => .refused r

/-- End the cycle after its commands. -/
def endCycle : Host.Outcome State Fault Refusal → Host.Outcome State Fault Refusal
  | .next t => .next t.advance
  | .fault r => .fault r
  | .refused r => .refused r

/-- One clock edge (R9, R11). `rst == 1` overrides every other input (R187 point 1, R200). Otherwise
the outputs leave, RSQ steps, and the accepted commands take effect. -/
def clockEdge (s : State) : Host.Outcome State Fault Refusal :=
  if s.now.rst then .next (resetEdge s).advance
  else endCycle (execAll (accepted s) (quietEdge s))

/-! ### The output ports (R21) -/

/-- Every output port of the block in one cycle. -/
structure Outputs where
  encCmdReady : Bool
  txValid : Bool
  txData : Byte
  encStatus : BitVec 4
  rxReady : Bool
  doutValid : Bool
  doutWord : DoutItem
  decStatus : BitVec 3
  cksCmdReady : Bool
  cksAcc : Word32
  cksStatus : BitVec 1
  rsqCmdReady : Bool
  dtr : Bool
  rts : Bool
  tpOpenReq : Bool
  rsqStatus : BitVec 8
  deriving DecidableEq, Repr

/-- `tx_data`: the head of `ENC.buf`, any value when there is none (R23, R91; log entry 7). -/
def txData (s : State) : Byte :=
  match s.enc.buf with
  | b :: _ => b
  | [] => Config.idleTxData s.cycle

/-- `dout_word`: the item in `DEC.obuf`, any value when there is none (R26, R110; log entry 7). -/
def doutWord (s : State) : DoutItem :=
  match s.dec.obuf with
  | some x => x
  | none => Config.idleDoutWord s.cycle

/-- The output ports in the present cycle. During reset the valid and status outputs show the state
as it stands and every ready is 0 (R201). -/
def outputs (s : State) : Outputs :=
  { encCmdReady := encCmdReady s
    txValid := txValid s
    txData := txData s
    encStatus := encStatus s.enc
    rxReady := rxReady s
    doutValid := doutValid s
    doutWord := doutWord s
    decStatus := decStatus s.dec
    cksCmdReady := cksCmdReady s
    cksAcc := s.cks.acc
    cksStatus := cksStatus s.cks
    rsqCmdReady := rsqCmdReady s
    dtr := s.rsq.dtr
    rts := s.rsq.rts
    tpOpenReq := s.rsq.openReq
    rsqStatus := rsqStatus s.rsq }

/-! ### Offering one word in the coming cycle -/

/-- A cycle in which nothing is offered and every output is taken. -/
def quietInputs : Inputs :=
  { rst := false, encCmdValid := false, encCmd := 0, txReady := true, rxValid := false, rxWord := 0,
    doutReady := true, cksCmdValid := false, cksCmd := 0, rsqCmdValid := false, rsqCmd := 0,
    tpIsOpen := false, tpOpenAck := false, tpOpenOk := false }

/-- The inputs listed for the coming cycle, without commands and without reset. -/
def quietCycle (s : State) : Inputs :=
  match s.inputs with
  | i :: _ => { i with rst := false, encCmdValid := false, rxValid := false, cksCmdValid := false,
                       rsqCmdValid := false }
  | [] => quietInputs

/-- A cycle's inputs with one word offered, its unit's output taken in the same cycle. -/
def offerIn (i : Inputs) : PortWord → Inputs
  | .enc w => { i with encCmdValid := true, encCmd := w, txReady := true }
  | .dec w => { i with rxValid := true, rxWord := w, doutReady := true }
  | .cks w => { i with cksCmdValid := true, cksCmd := w }
  | .rsq w => { i with rsqCmdValid := true, rsqCmd := w }

/-- Make the word's unit able to take it in the coming cycle: ENC with two bytes to send loses the
last of them, and a running sequence is taken as ended. A unit that can take the word is left as it
is, as every unit is after reset (log entry 8). -/
def freeUnit (s : State) : PortWord → State
  | .enc _ => s.withEnc { s.enc with buf := s.enc.buf.take 1 }
  | .dec _ => s
  | .cks _ => s
  | .rsq _ => s.withRsq { s.rsq with phase := .idle }

/-- The state in which the environment offers exactly this word in the coming cycle, and its unit
takes it (log entry 8). -/
def State.offering (s : State) (w : PortWord) : State :=
  { freeUnit s w with inputs := offerIn (quietCycle s) w :: s.inputs.tail }

end Sys2Proof.Machine
end

