-- ==== Sys2Proof/Machine/Step.lean ====
section
/-! DEFINITION. The step of the machine, one clock edge, and the placing of a command word where the
next step takes it. -/

namespace Sys2Proof.Machine

/-- One step is one clock edge. -/
def step (s : State) : Host.Outcome State Fault Refusal := clockEdge s

/-- The state whose very next step runs the instruction that a table row's bits stand for: its word is
offered on its port. A number that is no word leaves the state as it is. -/
def State.withFetchWord (s : State) (nbits w : Nat) : State :=
  match tableWord nbits w with
  | some pw => s.offering pw
  | none => s

end Sys2Proof.Machine
end

