-- ==== Sys2Proof/Machine/Assembler.lean ====
section
/-! DEFINITION. The assembler text of spec/30_encoding.md R70 and the pseudo-instructions of R71: from a
line of text to the commands it stands for. "A pseudo-instruction is a text macro. The block has no
knowledge of it": nothing of the machine reads this file. -/

namespace Sys2Proof.Machine

/-- Why an assembler refuses a line. -/
inductive AsmError where
  /-- the text is not a line of R70 or R71 -/
  | notALine
  /-- an operand lies outside its range (R70) -/
  | operandOutOfRange
  deriving DecidableEq, Repr

/-- The commands of `ENC.FRAME` (R71). -/
def frameCommands (p : List Byte) : List Instr := .encBegin 0 :: p.map .encByte ++ [.encEnd 0]

/-- The commands of `DEC.DELIVERY` (R71). -/
def deliveryCommands (d : List Byte) : List Instr := d.map .decByte ++ [.decEnd 0]

/-- The commands of `CKS.SUM` (R71). -/
def sumCommands (seed : Word32) (ws : List Word32) : List Instr := .cksInit seed :: ws.map .cksWord

/-- The commands of `CKS.SUMM` (R71). -/
def summCommands (ws : List Word32) : List Instr := .cksInitm 0 :: ws.map .cksWord

/-- The commands a line stands for, its operands being in range (R70, R71). -/
def lineCommands : AsmLine → List Instr
  | .encBegin => [.encBegin 0]
  | .encByte b => [.encByte (BitVec.ofNat 8 b)]
  | .encEnd => [.encEnd 0]
  | .decByte b => [.decByte (BitVec.ofNat 8 b)]
  | .decEnd => [.decEnd 0]
  | .cksWord w => [.cksWord (BitVec.ofNat 32 w)]
  | .cksInit s => [.cksInit (BitVec.ofNat 32 s)]
  | .cksInitm => [.cksInitm 0]
  | .rsqEnter f => [.rsqEnter (f == 1)]
  | .encFrame bs => frameCommands (bs.map (BitVec.ofNat 8))
  | .decDelivery bs => deliveryCommands (bs.map (BitVec.ofNat 8))
  | .cksSum s ws => sumCommands (BitVec.ofNat 32 s) (ws.map (BitVec.ofNat 32))
  | .cksSumm ws => summCommands (ws.map (BitVec.ofNat 32))
  | .rsqFlash => [.rsqEnter true]
  | .rsqRun => [.rsqEnter false]

/-- Assemble a line: refused when an operand is out of range (R70). -/
def assemble (l : AsmLine) : Except AsmError (List Instr) :=
  if l.wellFormed then .ok (lineCommands l) else .error .operandOutOfRange

/-! ### Text (log entry 14) -/

/-- Without the spaces at its two ends. -/
def trimSpaces (cs : List Char) : List Char :=
  ((cs.dropWhile (· == ' ')).reverse.dropWhile (· == ' ')).reverse

/-- The value of a digit in a base, if it is one. -/
def digitValue (base : Nat) (c : Char) : Option Nat :=
  let n := c.toNat
  let v :=
    if 48 ≤ n ∧ n ≤ 57 then n - 48
    else if 97 ≤ n ∧ n ≤ 102 then n - 87
    else if 65 ≤ n ∧ n ≤ 70 then n - 55
    else base
  if v < base then some v else none

/-- A string of digits in a base, read from the value so far. -/
def digitsValue (base : Nat) : Nat → List Char → Option Nat
  | acc, [] => some acc
  | acc, c :: cs =>
    match digitValue base c with
    | some v => digitsValue base (acc * base + v) cs
    | none => none

/-- "Numbers are hexadecimal with `0x`, or decimal" (R70). -/
def parseNumber : List Char → Option Nat
  | '0' :: 'x' :: c :: cs => digitsValue 16 0 (c :: cs)
  | c :: cs => digitsValue 10 0 (c :: cs)
  | [] => none

/-- Cut at commas. -/
def splitCommas : List Char → List (List Char)
  | [] => [[]]
  | c :: cs =>
    if c = ',' then [] :: splitCommas cs
    else
      match splitCommas cs with
      | part :: parts => (c :: part) :: parts
      | [] => [[c]]

/-- Every number of a list of texts, or none. -/
def parseNumbers : List (List Char) → Option (List Nat)
  | [] => some []
  | p :: ps =>
    match parseNumber (trimSpaces p), parseNumbers ps with
    | some n, some ns => some (n :: ns)
    | _, _ => none

/-- "its operands separated by commas" (R70); no operand at all where the text is blank. -/
def parseOperands (cs : List Char) : Option (List Nat) :=
  if trimSpaces cs = [] then some [] else parseNumbers (splitCommas cs)

/-- The line of a mnemonic and its operands (R70, R71). -/
def asmLine (name : List Char) (ops : List Nat) : Option AsmLine :=
  if name = "ENC.BEGIN".toList then (if ops = [] then some .encBegin else none)
  else if name = "ENC.BYTE".toList then (match ops with | [b] => some (.encByte b) | _ => none)
  else if name = "ENC.END".toList then (if ops = [] then some .encEnd else none)
  else if name = "DEC.BYTE".toList then (match ops with | [b] => some (.decByte b) | _ => none)
  else if name = "DEC.END".toList then (if ops = [] then some .decEnd else none)
  else if name = "CKS.WORD".toList then (match ops with | [w] => some (.cksWord w) | _ => none)
  else if name = "CKS.INIT".toList then (match ops with | [s] => some (.cksInit s) | _ => none)
  else if name = "CKS.INITM".toList then (if ops = [] then some .cksInitm else none)
  else if name = "RSQ.ENTER".toList then (match ops with | [f] => some (.rsqEnter f) | _ => none)
  else if name = "ENC.FRAME".toList then some (.encFrame ops)
  else if name = "DEC.DELIVERY".toList then some (.decDelivery ops)
  else if name = "CKS.SUM".toList then
    (match ops with | s :: ws => some (.cksSum s ws) | [] => none)
  else if name = "CKS.SUMM".toList then some (.cksSumm ops)
  else if name = "RSQ.FLASH".toList then (if ops = [] then some .rsqFlash else none)
  else if name = "RSQ.RUN".toList then (if ops = [] then some .rsqRun else none)
  else none

/-- "A line is a mnemonic, then its operands separated by commas" (R70). -/
def parseLine (text : String) : Option AsmLine :=
  let cs := trimSpaces text.toList
  match parseOperands (cs.dropWhile (· != ' ')) with
  | some ops => asmLine (cs.takeWhile (· != ' ')) ops
  | none => none

/-- From a line of text to its commands (R70, R71). -/
def assembleText (text : String) : Except AsmError (List Instr) :=
  match parseLine text with
  | some l => assemble l
  | none => .error .notALine

end Sys2Proof.Machine
end

