-- ==== Sys2Proof/Machine/Reference.lean ====
section
/-! DEFINITION. The reference functions the units compute: `encode` (spec/40_slip_encoder.md R80),
`decode` (spec/41_slip_decoder.md R100), `checksum` (spec/42_checksum.md R130); what a consumer keeps of
the decoder's items (R106); and the target's reading of the lines (spec/43_reset_sequencer.md R160).
No meaning of an instruction calls them: they are what statements compare the machine with. -/

namespace Sys2Proof.Machine

/-- `encode(p)` (R80). -/
def slipEncode (p : List Byte) : List Byte := [slipDelim] ++ p.flatMap escapeByte ++ [slipDelim]

/-- The loop of `decode` (R100) over the bytes still to read, with `escape` and `out`: the value of
`out` when it returns, and how it returns. -/
def slipScan : Bool → List Byte → List Byte → List Byte × DecodeResult
  | _, out, [] => (out, .unterminatedFrame)
  | true, out, b :: rest =>
    if b = slipEscDelim then slipScan false (out ++ [slipDelim]) rest
    else if b = slipEscEsc then slipScan false (out ++ [slipEsc]) rest
    else (out, .invalidEscapeSequence)
  | false, out, b :: rest =>
    if b = slipEsc then slipScan true out rest
    else if b = slipDelim then (out, .ok)
    else slipScan false (out ++ [b]) rest

/-- `out` and the outcome when `decode` returns (R100, R104). -/
def slipDecodeTrace : List Byte → List Byte × DecodeResult
  | [] => ([], .frameMissingHeader)
  | b :: rest => if b = slipDelim then slipScan false [] rest else ([], .frameMissingHeader)

/-- `decode(d)` (R100): the payload, or the framing error. -/
def slipDecode (d : List Byte) : Except DecodeResult (List Byte) :=
  match slipDecodeTrace d with
  | (out, .ok) => .ok out
  | (_, .frameMissingHeader) => .error .frameMissingHeader
  | (_, .invalidEscapeSequence) => .error .invalidEscapeSequence
  | (_, .unterminatedFrame) => .error .unterminatedFrame

/-- The `dout` items of one delivery (R104): the bytes decoded before `decode` returned, then the
result. -/
def deliveryItems (d : List Byte) : List DoutItem :=
  (slipDecodeTrace d).1.map doutByte ++ [doutResult (slipDecodeTrace d).2]

/-- What a consumer obeying R106 keeps of the items, given the bytes it holds of the delivery in
progress: for each finished delivery its result code, with the held bytes when the code is `OK` and
nothing otherwise. -/
def consumerView : List Byte → List DoutItem → List (Byte × List Byte)
  | _, [] => []
  | held, x :: xs =>
    if dout9Kind x = 0#1 then consumerView (held ++ [dout9Data x]) xs
    else (dout9Data x, if dout9Data x = 0#8 then held else []) :: consumerView [] xs

/-- `checksum(words, seed)` (R130). -/
def checksum (words : List Word32) (seed : Word32) : Word32 :=
  words.foldl (fun acc w => acc ^^^ w) seed

/-- What the target board does with the lines; informative (R160). -/
inductive TargetCondition where
  | run
  | resetHeld
  | bootloaderSelect
  deriving DecidableEq, Repr

/-- The table of R160, its two middle rows read by the step labels (90_conflicts.md C1). PRESUMED (log
entry 16): no rule of the block and no statement depends on it. -/
def targetCondition (dtr rts : Bool) : TargetCondition :=
  match dtr, rts with
  | false, false => .run
  | false, true => .resetHeld
  | true, false => .bootloaderSelect
  | true, true => .run

end Sys2Proof.Machine
end

