-- ==== Sys2Proof/Safety.lean ====
section
/-! DEFINITION. What counts as a safe run (spec/60_exceptions.md R184), the invariant of the machine,
the environment's duty (spec/30_encoding.md R60), and the words in which statements speak of runs. -/

namespace Sys2Proof.Machine

/-! ### Faulted runs -/

/-- A run that sets `SEQERR` or an `ILLOP` counts as faulted: the bits are sticky, so the state it has
reached says so (R184, R186). -/
def State.faulted (s : State) : Bool := s.enc.seqerr || s.enc.illop || s.cks.illop

/-! ### The invariant -/

/-- Where a reader of the wire stands (R68). -/
inductive WirePlace where
  | outside
  | inside
  | afterEsc
  deriving DecidableEq, Repr

/-- One byte further along the wire; none once the wire is no sequence of frames (R68, R87). -/
def wireStep : Option WirePlace → Byte → Option WirePlace
  | none, _ => none
  | some .outside, b => if b = slipDelim then some .inside else none
  | some .inside, b =>
    if b = slipDelim then some .outside
    else if b = slipEsc then some .afterEsc
    else some .inside
  | some .afterEsc, b => if b = slipEscDelim ∨ b = slipEscEsc then some .inside else none

/-- A reader's place after a whole wire (R68, R87). -/
def wireScan (bs : List Byte) : Option WirePlace := bs.foldl wireStep (some .outside)

/-- What ENC has put on the wire since reset, sent or still in its buffer. -/
def State.wire (s : State) : List Byte := s.txOut ++ s.enc.buf

/-- What DEC has emitted since reset, taken or still in its output register. -/
def State.items (s : State) : List DoutItem := s.doutOut ++ s.dec.obuf.toList

/-- ENC: at most two bytes wait (R23), two only as an escape pair (R82), and the wire since reset is
whole frames, with one more open exactly when `in_frame` is 1 (R22, R87). -/
def encInv (s : State) : Prop :=
  (match s.enc.buf with
   | [] => True
   | [_] => True
   | [a, b] => a = slipEsc ∧ (b = slipEscDelim ∨ b = slipEscEsc)
   | _ :: _ :: _ :: _ => False) ∧
  wireScan s.wire = some (if s.enc.inFrame then .inside else .outside)

/-- An item the block may produce: a payload byte, or a result with one of the four codes (R65). -/
def legalItem (x : DoutItem) : Prop := dout9Kind x = 0#1 ∨ (dout9Data x).toNat < 4

/-- Nothing emitted, or a result item last: no delivery has payload bytes without its result. -/
def itemsClosed (xs : List DoutItem) : Prop :=
  match xs.getLast? with
  | none => True
  | some x => dout9Kind x = 1#1

/-- DEC: every item is legal (R65), and in `HEADER` and `SKIP` the last item is a result (R105). -/
def decInv (s : State) : Prop :=
  (∀ x ∈ s.items, legalItem x) ∧
  (s.dec.phase = .header ∨ s.dec.phase = .skip → itemsClosed s.items)

/-- RSQ: the levels of the lines and of `tp_open_req` follow from the phase, the timer is between 1 and
`HOLD_CYCLES` in the hold phases, and `DONE` is seen only in `IDLE` (R154, R157, R158, R162). -/
def rsqInv (s : State) : Prop :=
  match s.rsq.phase with
  | .idle =>
    s.rsq.timer = 0 ∧ s.rsq.dtr = false ∧ s.rsq.rts = false ∧ s.rsq.openReq = false
  | .openWait =>
    s.rsq.timer = 0 ∧ s.rsq.dtr = false ∧ s.rsq.rts = false ∧ s.rsq.openReq = true ∧
    s.rsq.done = false
  | .holdReset =>
    1 ≤ s.rsq.timer ∧ s.rsq.timer ≤ s.cfg.holdCycles ∧ s.rsq.dtr = false ∧ s.rsq.rts = true ∧
    s.rsq.openReq = false ∧ s.rsq.done = false
  | .holdTarget =>
    1 ≤ s.rsq.timer ∧ s.rsq.timer ≤ s.cfg.holdCycles ∧ s.rsq.dtr = s.rsq.flash ∧
    s.rsq.rts = false ∧ s.rsq.openReq = false ∧ s.rsq.done = false

/-- The invariant every step keeps. -/
def State.Inv (s : State) : Prop := encInv s ∧ decInv s ∧ rsqInv s

/-! ### Runs -/

/-- `k` steps from `s` answer `t`. -/
def reaches (k : Nat) (s t : State) : Prop := Host.Core.run core k s = .next t

/-- The commands a unit accepts in `k` cycles, in order; `unit` is `acceptedEnc` or one of its like. -/
def acceptedIn (unit : State → List Instr) : Nat → State → List Instr
  | 0, _ => []
  | k + 1, s =>
    unit s ++
      (match step s with
       | .next t => acceptedIn unit k t
       | .fault _ => []
       | .refused _ => [])

/-- A property of the present state holds in each of `k` cycles. -/
def throughout (p : State → Prop) : Nat → State → Prop
  | 0, _ => True
  | k + 1, s =>
    p s ∧
      (match step s with
       | .next t => throughout p k t
       | .fault _ => True
       | .refused _ => True)

/-- `rst` is 0 in the present cycle. -/
def noReset (s : State) : Prop := s.now.rst = false

/-! ### The environment's duty -/

/-- From `s` to the next cycle's state `t` the environment holds every word that did not move
(R60). -/
def holdsWords (s t : State) : Prop :=
  (s.now.encCmdValid = true → encCmdReady s = false →
    t.now.encCmdValid = true ∧ t.now.encCmd = s.now.encCmd) ∧
  (s.now.rxValid = true → rxReady s = false → t.now.rxValid = true ∧ t.now.rxWord = s.now.rxWord) ∧
  (s.now.cksCmdValid = true → cksCmdReady s = false →
    t.now.cksCmdValid = true ∧ t.now.cksCmd = s.now.cksCmd) ∧
  (s.now.rsqCmdValid = true → rsqCmdReady s = false →
    t.now.rsqCmdValid = true ∧ t.now.rsqCmd = s.now.rsqCmd)

end Sys2Proof.Machine
end

