-- ==== Sys2Proof/Certificates/Slice0/Obligations.lean ====
section
/-! DEFINITION. The statements put to the provers. They come from the numbered rules of spec/; each
docstring names its rules. `run` statements speak of any environment: the inputs are part of the
state, and those not listed there are free. -/

open Sys2Proof Sys2Proof.Machine

/-! ### Encoding -/

/-- Decode and encode agree, both ways, for every instruction and every word (R62, R64, R66, R67).
That a word comes back whole, an ignored `DATA` with it, rests on the model's choice of log entry 13,
which keeps that field in the instruction (by R63 words that differ in it are one command). That a
number is refused as a word of a port exactly when it has a bit above the port's width is the
model's choice of log entry 9, by the widths of R61. -/
def Obligations.DecodeAndEncodeAgree : Prop :=
  (∀ i : Instr, i.wellFormed = true →
    decodeNat i.port (encode i).toNat = .ok i ∧ (encode i).port = i.port ∧ decode (encode i) = i) ∧
  (∀ w : PortWord, encode (decode w) = w) ∧
  (∀ (p : Port) (n : Nat),
    (2 ^ p.width ≤ n → decodeNat p n = .error (.wordTooWide p)) ∧
    (n < 2 ^ p.width → ∃ i, decodeNat p n = .ok i ∧ i.port = p ∧ (encode i).toNat = n))

/-- Every word of every port matches exactly one row of spec/opcode_table.json, the row of the
instruction it decodes to (R62, R64, R66, R67, R69). -/
def Obligations.DecodingFollowsOpcodeTable : Prop :=
  ∀ w : PortWord,
    (opcodeTable.filter (fun r => r.hits w)).map (fun r => r.mnemonic) = [mnemonic (decode w)]

/-- Words written out bit by bit from the tables of R62 to R67 decode to what they stand for. -/
def Obligations.WrittenWordsDecode : Prop :=
  decode (.enc 0b0011000000#10) = .encByte 0xC0#8 ∧
  decode (.enc 0b0100000000#10) = .encBegin 0x00#8 ∧
  decode (.enc 0b1011001101#10) = .encEnd 0xCD#8 ∧
  decode (.enc 0b1111111111#10) = .encReserved 0xFF#8 ∧
  decode (.dec 0b011011100#9) = .decByte 0xDC#8 ∧
  decode (.dec 0b100000000#9) = .decEnd 0x00#8 ∧
  decode (.cks 0b0000010010001101000101011001111000#34) = .cksWord 0x12345678#32 ∧
  decode (.cks 0b0111011110101011011011111011101111#34) = .cksInit 0xDEADBEEF#32 ∧
  decode (.cks 0b1000000000000000000000000000000000#34) = .cksInitm 0#32 ∧
  decode (.cks 0b1111111111111111111111111111111111#34) = .cksReserved 0xFFFFFFFF#32 ∧
  decode (.rsq 0b1#1) = .rsqEnter true ∧
  decode (.rsq 0b0#1) = .rsqEnter false

/-- The `DATA` of `ENC.BEGIN` and `ENC.END` is ignored for every value: offering the word with any
`DATA` and with zero makes the same step (R63). -/
def Obligations.DataOfBeginAndEndIgnored : Prop :=
  ∀ (s : State) (i : Inputs) (later : List Inputs) (d : Byte),
    step { s with inputs := { i with encCmd := 0x100#10 ||| d.setWidth 10 } :: later } =
      step { s with inputs := { i with encCmd := 0x100#10 } :: later } ∧
    step { s with inputs := { i with encCmd := 0x200#10 ||| d.setWidth 10 } :: later } =
      step { s with inputs := { i with encCmd := 0x200#10 } :: later }

/-- The words an assembler writes (the table of R70), and the operands it refuses. -/
def Obligations.AssemblerWritesTableWords : Prop :=
  (∀ n : Nat, n < 2 ^ 8 →
    assemble (.encByte n) = .ok [decode (.enc (BitVec.ofNat 10 n))] ∧
    assemble (.decByte n) = .ok [decode (.dec (BitVec.ofNat 9 n))]) ∧
  (∀ n : Nat, n < 2 ^ 32 →
    assemble (.cksWord n) = .ok [decode (.cks (BitVec.ofNat 34 n))] ∧
    assemble (.cksInit n) = .ok [decode (.cks (BitVec.ofNat 34 (0x100000000 + n)))]) ∧
  (∀ n : Nat, n < 2 → assemble (.rsqEnter n) = .ok [decode (.rsq (BitVec.ofNat 1 n))]) ∧
  assemble .encBegin = .ok [decode (.enc 0x100#10)] ∧
  assemble .encEnd = .ok [decode (.enc 0x200#10)] ∧
  assemble .decEnd = .ok [decode (.dec 0x100#9)] ∧
  assemble .cksInitm = .ok [decode (.cks 0x200000000#34)] ∧
  (∀ n : Nat, 2 ^ 8 ≤ n →
    assemble (.encByte n) = .error .operandOutOfRange ∧
    assemble (.decByte n) = .error .operandOutOfRange) ∧
  (∀ n : Nat, 2 ^ 32 ≤ n →
    assemble (.cksWord n) = .error .operandOutOfRange ∧
    assemble (.cksInit n) = .error .operandOutOfRange) ∧
  (∀ n : Nat, 2 ≤ n → assemble (.rsqEnter n) = .error .operandOutOfRange)

/-- The pseudo-instructions expand as the table of R71 says, for operands of any length. -/
def Obligations.PseudoInstructionsExpand : Prop :=
  (∀ p : List Byte,
    assemble (.encFrame (p.map BitVec.toNat)) =
      .ok (.encBegin 0 :: p.map .encByte ++ [.encEnd 0])) ∧
  (∀ d : List Byte,
    assemble (.decDelivery (d.map BitVec.toNat)) = .ok (d.map .decByte ++ [.decEnd 0])) ∧
  (∀ (seed : Word32) (ws : List Word32),
    assemble (.cksSum seed.toNat (ws.map BitVec.toNat)) = .ok (.cksInit seed :: ws.map .cksWord)) ∧
  (∀ ws : List Word32,
    assemble (.cksSumm (ws.map BitVec.toNat)) = .ok (.cksInitm 0 :: ws.map .cksWord)) ∧
  assemble .rsqFlash = .ok [.rsqEnter true] ∧
  assemble .rsqRun = .ok [.rsqEnter false]

/-! ### The step -/

/-- Nothing stops the block: every step answers a next state, and so does every instruction in every
state (R180: "The block has no trap mechanism"). -/
def Obligations.BlockNeverStops : Prop :=
  (∀ s : State, ∃ t, step s = .next t) ∧ (∀ (i : Instr) (s : State), ∃ t, exec i s = .next t)

/-- A step runs the decoded instruction: outside reset a word that is valid and ready is accepted as
the instruction it decodes to (R60), and a step is the edge's own work, then the accepted commands,
then the end of the cycle. With one command accepted, the step is `exec` of that command. That order
of the writes of one edge, which R9 makes together, is the model's reading, log entry 2. -/
def Obligations.StepRunsDecodedInstruction : Prop :=
  ∀ s : State, s.now.rst = false →
    (s.now.encCmdValid = true → encCmdReady s = true →
      acceptedEnc s = [decode (.enc s.now.encCmd)]) ∧
    (s.now.rxValid = true → rxReady s = true → acceptedDec s = [decode (.dec s.now.rxWord)]) ∧
    (s.now.cksCmdValid = true → acceptedCks s = [decode (.cks s.now.cksCmd)]) ∧
    (s.now.rsqCmdValid = true → rsqCmdReady s = true →
      acceptedRsq s = [decode (.rsq s.now.rsqCmd)]) ∧
    (s.now.encCmdValid = false ∨ encCmdReady s = false → acceptedEnc s = []) ∧
    (s.now.rxValid = false ∨ rxReady s = false → acceptedDec s = []) ∧
    (s.now.cksCmdValid = false → acceptedCks s = []) ∧
    (s.now.rsqCmdValid = false ∨ rsqCmdReady s = false → acceptedRsq s = []) ∧
    (accepted s = [] → step s = .next (quietEdge s).advance) ∧
    (∀ i, accepted s = [i] →
      ∃ t, exec i (quietEdge s) = .next t ∧ step s = .next t.advance) ∧
    (∃ t, execAll (accepted s) (quietEdge s) = .next t ∧ step s = .next t.advance)

/-- What the edge does before its accepted commands (R187 point 6: "the output leaves first"): the
head of `ENC.buf` and the item of `DEC.obuf` leave if they are taken (R91, R111), RSQ steps, and
nothing else changes. -/
def Obligations.EdgeBeforeCommands : Prop :=
  ∀ s : State,
    (quietEdge s).enc = { s.enc with buf := if s.now.txReady then s.enc.buf.tail else s.enc.buf } ∧
    (quietEdge s).txOut = s.txOut ++ (if s.now.txReady then s.enc.buf.take 1 else []) ∧
    (quietEdge s).dec = { s.dec with obuf := if s.now.doutReady then none else s.dec.obuf } ∧
    (quietEdge s).doutOut =
      s.doutOut ++ (if s.now.doutReady then s.dec.obuf.toList else []) ∧
    (quietEdge s).cks = s.cks ∧ (quietEdge s).cfg = s.cfg ∧ (quietEdge s).inputs = s.inputs ∧
    (quietEdge s).cycle = s.cycle

/-- A word placed by `withFetchWord` is accepted, alone, by the very next step, which runs it (log
entry 8: the model's way of bringing a program to the machine). -/
def Obligations.PlacedWordRunsNext : Prop :=
  ∀ (s : State) (nbits w : Nat) (i : Instr), decodeTableWord nbits w = some i →
    accepted (s.withFetchWord nbits w) = [i] ∧
    ∃ t, exec i (quietEdge (s.withFetchWord nbits w)) = .next t ∧
      step (s.withFetchWord nbits w) = .next t.advance

/-- ENC and DEC are ready exactly when, outside reset, what the edge leaves of their output is nothing:
the remarks "rest == [] here by rule R90" and "left == empty here by rule R112" of R91 and R111.
`exec` is the transaction level, in a state whose earlier output has already left: a step runs it on
`quietEdge s`. In a state whose output has not left, or in which a sequence runs, it answers the same
state. This is the model's reading of R60, log entry 3. -/
def Obligations.WordWaitsUntilUnitIsFree : Prop :=
  ∀ (i : Instr) (s : State),
    (encCmdReady s = true ↔ s.now.rst = false ∧ (quietEdge s).enc.buf = []) ∧
    (rxReady s = true ↔ s.now.rst = false ∧ (quietEdge s).dec.obuf = none) ∧
    (i.port = .enc → s.enc.buf ≠ [] → exec i s = .next s) ∧
    (i.port = .dec → s.dec.obuf ≠ none → exec i s = .next s) ∧
    (i.port = .rsq → s.rsq.phase ≠ .idle → exec i s = .next s)

/-- The frame of every instruction: only its own unit's state may change; the other units, the output
sequences, the parameters, the environment's inputs and the cycle counter are unchanged (R56). -/
def Obligations.OtherUnitsUnchanged : Prop :=
  ∀ (i : Instr) (s t : State), exec i s = .next t →
    (i.port ≠ .enc → t.enc = s.enc) ∧ (i.port ≠ .dec → t.dec = s.dec) ∧
    (i.port ≠ .cks → t.cks = s.cks) ∧ (i.port ≠ .rsq → t.rsq = s.rsq) ∧
    t.txOut = s.txOut ∧ t.doutOut = s.doutOut ∧ t.cfg = s.cfg ∧ t.inputs = s.inputs ∧
    t.cycle = s.cycle

/-- Commands of different units commute, so the order in which one edge applies them is no order
(R9, R56; R187 point 5). -/
def Obligations.CommandsOfDifferentUnitsCommute : Prop :=
  ∀ (i j : Instr) (s : State), i.port ≠ j.port → execAll [i, j] s = execAll [j, i] s

/-- No unit sees another: what a unit becomes in a step depends on its own state, its own input ports,
`rst` and the parameters alone (R56). -/
def Obligations.UnitsShareNoState : Prop :=
  ∀ s s' t t' : State, step s = .next t → step s' = .next t' →
    s.now.rst = s'.now.rst → s.cfg = s'.cfg →
    (s.enc = s'.enc → s.txOut = s'.txOut → s.now.encCmdValid = s'.now.encCmdValid →
      s.now.encCmd = s'.now.encCmd → s.now.txReady = s'.now.txReady →
      t.enc = t'.enc ∧ t.txOut = t'.txOut) ∧
    (s.dec = s'.dec → s.doutOut = s'.doutOut → s.now.rxValid = s'.now.rxValid →
      s.now.rxWord = s'.now.rxWord → s.now.doutReady = s'.now.doutReady →
      t.dec = t'.dec ∧ t.doutOut = t'.doutOut) ∧
    (s.cks = s'.cks → s.now.cksCmdValid = s'.now.cksCmdValid → s.now.cksCmd = s'.now.cksCmd →
      t.cks = t'.cks) ∧
    (s.rsq = s'.rsq → s.now.rsqCmdValid = s'.now.rsqCmdValid → s.now.rsqCmd = s'.now.rsqCmd →
      s.now.tpIsOpen = s'.now.tpIsOpen → s.now.tpOpenAck = s'.now.tpOpenAck →
      s.now.tpOpenOk = s'.now.tpOpenOk → t.rsq = t'.rsq)

/-- No parameter changes while the block runs, through resets too (R6). -/
def Obligations.ParametersNeverChange : Prop :=
  ∀ (k : Nat) (s t : State), reaches k s t → t.cfg = s.cfg

/-! ### Reset -/

/-- The reset state and the state after any edge with `rst == 1` hold the values of R33 in every
element, whatever the state before and the other inputs (R33, R200). -/
def Obligations.ResetGivesEveryElementItsValue : Prop :=
  ∀ s t : State, (s.now.rst = true ∧ step s = .next t) ∨ t = State.reset →
    t.enc.inFrame = false ∧ t.enc.seqerr = false ∧ t.enc.illop = false ∧ t.enc.buf = [] ∧
    t.dec.phase = .header ∧ t.dec.obuf = none ∧
    t.cks.acc = t.cfg.checksumMagic ∧ t.cks.illop = false ∧
    t.rsq.phase = .idle ∧ t.rsq.timer = 0 ∧ t.rsq.flash = false ∧ t.rsq.dtr = false ∧
    t.rsq.rts = false ∧ t.rsq.openReq = false ∧ t.rsq.result = .ok ∧ t.rsq.done = false

/-- During a cycle with `rst == 1` every ready is 0 and no command is accepted, the valid and status
outputs show the state as it stands, and a handshake is void: the byte or item offered in that cycle
is in no output sequence and no buffer afterwards (R201; that the output sequences begin anew at a
reset is log entry 6's reading of R10). -/
def Obligations.ResetCycleAcceptsNothing : Prop :=
  ∀ s : State, s.now.rst = true →
    (outputs s).encCmdReady = false ∧ (outputs s).rxReady = false ∧
    (outputs s).cksCmdReady = false ∧ (outputs s).rsqCmdReady = false ∧ accepted s = [] ∧
    ((outputs s).txValid = true ↔ s.enc.buf ≠ []) ∧
    ((outputs s).doutValid = true ↔ s.dec.obuf ≠ none) ∧
    (outputs s).encStatus = encStatus s.enc ∧ (outputs s).decStatus = decStatus s.dec ∧
    (outputs s).cksStatus = cksStatus s.cks ∧ (outputs s).rsqStatus = rsqStatus s.rsq ∧
    ∃ t, step s = .next t ∧ t.wire = [] ∧ t.items = []

/-- Right after any edge with `rst == 1`, and in the reset state of any parameters before any inputs,
every unit is idle and, in a cycle outside reset, ready, and the outputs are those of the reset vector
(R203; 95_test_vectors.md section 7). -/
def Obligations.IdleAndReadyAfterReset : Prop :=
  ∀ t : State,
    (∃ s, s.now.rst = true ∧ step s = .next t) ∨
      (∃ (p : Params) (is : List Inputs), t = { State.resetFor p with inputs := is }) →
    (t.now.rst = false →
      (outputs t).encCmdReady = true ∧ (outputs t).rxReady = true ∧
      (outputs t).cksCmdReady = true ∧ (outputs t).rsqCmdReady = true) ∧
    (outputs t).encStatus = 0x0#4 ∧ (outputs t).txValid = false ∧
    (outputs t).decStatus = 0x0#3 ∧ (outputs t).doutValid = false ∧
    (outputs t).cksAcc = t.cfg.checksumMagic ∧ (outputs t).cksStatus = 0#1 ∧
    (outputs t).rsqStatus = 0x00#8 ∧ (outputs t).dtr = false ∧ (outputs t).rts = false ∧
    (outputs t).tpOpenReq = false

/-! ### Status -/

/-- The bits of the four status words (R24, R27, R29, R32). `PHASE` has the codes of R25 and R30: it
reads each of them exactly in the phase the tables give it, and no other code. -/
def Obligations.StatusWordBits : Prop :=
  ∀ s : State,
    (outputs s).encStatus.getLsbD 0 = s.enc.inFrame ∧
    ((outputs s).encStatus.getLsbD 1 = true ↔ s.enc.buf ≠ []) ∧
    (outputs s).encStatus.getLsbD 2 = s.enc.seqerr ∧
    (outputs s).encStatus.getLsbD 3 = s.enc.illop ∧
    ((outputs s).decStatus.extractLsb' 0 2 = 0#2 ↔ s.dec.phase = .header) ∧
    ((outputs s).decStatus.extractLsb' 0 2 = 1#2 ↔ s.dec.phase = .body) ∧
    ((outputs s).decStatus.extractLsb' 0 2 = 2#2 ↔ s.dec.phase = .escape) ∧
    ((outputs s).decStatus.extractLsb' 0 2 = 3#2 ↔ s.dec.phase = .skip) ∧
    ((outputs s).decStatus.getLsbD 2 = true ↔ s.dec.obuf ≠ none) ∧
    (outputs s).cksStatus.getLsbD 0 = s.cks.illop ∧
    ((outputs s).rsqStatus.extractLsb' 0 3 = 0#3 ↔ s.rsq.phase = .idle) ∧
    ((outputs s).rsqStatus.extractLsb' 0 3 = 1#3 ↔ s.rsq.phase = .openWait) ∧
    ((outputs s).rsqStatus.extractLsb' 0 3 = 2#3 ↔ s.rsq.phase = .holdReset) ∧
    ((outputs s).rsqStatus.extractLsb' 0 3 = 3#3 ↔ s.rsq.phase = .holdTarget) ∧
    (outputs s).rsqStatus.getLsbD 3 = s.rsq.flash ∧ (outputs s).rsqStatus.getLsbD 4 = s.rsq.dtr ∧
    (outputs s).rsqStatus.getLsbD 5 = s.rsq.rts ∧
    ((outputs s).rsqStatus.getLsbD 6 = true ↔ s.rsq.result = .transportError) ∧
    (outputs s).rsqStatus.getLsbD 7 = s.rsq.done

/-- `SEQERR` and both `ILLOP` are sticky: no run without a reset clears one, and an edge with
`rst == 1` clears them all (R186). -/
def Obligations.StickyBitsClearedOnlyByReset : Prop :=
  (∀ (k : Nat) (s t : State), throughout noReset k s → reaches k s t →
    (s.enc.seqerr = true → t.enc.seqerr = true) ∧ (s.enc.illop = true → t.enc.illop = true) ∧
    (s.cks.illop = true → t.cks.illop = true) ∧ (s.faulted = true → t.faulted = true)) ∧
  (∀ s t : State, s.now.rst = true → step s = .next t → t.faulted = false)

/-! ### ENC -/

/-- `ENC.BEGIN` (R81), for every `DATA`: the word, the effect out of a frame and in one, the status
bits. -/
def Obligations.EncBeginOpensFrame : Prop :=
  ∀ (s : State) (d : Byte), s.enc.buf = [] →
    decode (.enc (0x100#10 ||| d.setWidth 10)) = .encBegin d ∧
    ∃ t, exec (.encBegin d) s = .next t ∧
      (s.enc.inFrame = false →
        t = { s with enc := { s.enc with buf := [0xC0#8], inFrame := true } } ∧
        (outputs t).encStatus.getLsbD 0 = true ∧ (outputs t).encStatus.getLsbD 1 = true) ∧
      (s.enc.inFrame = true →
        t = { s with enc := { s.enc with seqerr := true } } ∧
        (outputs t).encStatus.getLsbD 2 = true)

/-- `ENC.BYTE b` (R82): the word, the bytes loaded in a frame, the fault outside one, the status
bits. -/
def Obligations.EncByteEscapes : Prop :=
  ∀ (s : State) (b : Byte), s.enc.buf = [] →
    decode (.enc (0x000#10 ||| b.setWidth 10)) = .encByte b ∧
    ∃ t, exec (.encByte b) s = .next t ∧
      (s.enc.inFrame = true →
        (b = 0xC0#8 → t = { s with enc := { s.enc with buf := [0xDB#8, 0xDC#8] } }) ∧
        (b = 0xDB#8 → t = { s with enc := { s.enc with buf := [0xDB#8, 0xDD#8] } }) ∧
        (b ≠ 0xC0#8 → b ≠ 0xDB#8 → t = { s with enc := { s.enc with buf := [b] } }) ∧
        (outputs t).encStatus.getLsbD 1 = true) ∧
      (s.enc.inFrame = false →
        t = { s with enc := { s.enc with seqerr := true } } ∧
        (outputs t).encStatus.getLsbD 2 = true)

/-- `ENC.END` (R83), for every `DATA`: the word, the effect in a frame and out of one, the status
bits. -/
def Obligations.EncEndClosesFrame : Prop :=
  ∀ (s : State) (d : Byte), s.enc.buf = [] →
    decode (.enc (0x200#10 ||| d.setWidth 10)) = .encEnd d ∧
    ∃ t, exec (.encEnd d) s = .next t ∧
      (s.enc.inFrame = true →
        t = { s with enc := { s.enc with buf := [0xC0#8], inFrame := false } } ∧
        (outputs t).encStatus.getLsbD 0 = false ∧ (outputs t).encStatus.getLsbD 1 = true) ∧
      (s.enc.inFrame = false →
        t = { s with enc := { s.enc with seqerr := true } } ∧
        (outputs t).encStatus.getLsbD 2 = true)

/-- The reserved encoder opcode (R85): only `ILLOP` is set, whatever `ENC.in_frame` is, and the run
counts as faulted. -/
def Obligations.EncReservedSetsOnlyIllop : Prop :=
  ∀ (s : State) (d : Byte), s.enc.buf = [] →
    decode (.enc (0x300#10 ||| d.setWidth 10)) = .encReserved d ∧
    ∃ t, exec (.encReserved d) s = .next t ∧
      t = { s with enc := { s.enc with illop := true } } ∧ t.faulted = true

/-- `SequenceError` (R84): raised by exactly the commands out of sequence; `SEQERR` is set,
`in_frame` and the empty buffer stay, and the run counts as faulted. -/
def Obligations.SequenceErrorDiscardsCommand : Prop :=
  ∀ (s : State) (d : Byte) (i : Instr), s.enc.buf = [] →
    (i = .encBegin d ∧ s.enc.inFrame = true) ∨
      ((i = .encByte d ∨ i = .encEnd d) ∧ s.enc.inFrame = false) →
    ∃ t, exec i s = .next t ∧ t.enc.seqerr = true ∧ t.enc.inFrame = s.enc.inFrame ∧
      t.enc.buf = [] ∧ t.enc.illop = s.enc.illop ∧ t.faulted = true

/-- The `enc_cmd` and `tx` ports in every cycle, and at an edge outside reset (R90, R91): when ENC is
ready, when it accepts the offered command, and what the edge makes of its buffer. -/
def Obligations.EncPortEdge : Prop :=
  ∀ s : State,
    (encCmdReady s = true ↔
      s.now.rst = false ∧
        (s.enc.buf.length = 0 ∨ (s.enc.buf.length = 1 ∧ s.now.txReady = true))) ∧
    (acceptedEnc s = [decode (.enc s.now.encCmd)] ↔
      s.now.encCmdValid = true ∧ encCmdReady s = true) ∧
    (acceptedEnc s = [] ↔ s.now.encCmdValid = false ∨ encCmdReady s = false) ∧
    (txValid s = true ↔ s.enc.buf ≠ []) ∧
    (∀ b rest, s.enc.buf = b :: rest → txData s = b) ∧
    (s.now.rst = false → ∃ t, step s = .next t ∧
      t.txOut = s.txOut ++ (if txValid s && s.now.txReady then [txData s] else []) ∧
      (acceptedEnc s = [] →
        t.enc = { s.enc with
          buf := if txValid s && s.now.txReady then s.enc.buf.tail else s.enc.buf }) ∧
      (∀ i, acceptedEnc s = [i] →
        (if txValid s && s.now.txReady then s.enc.buf.tail else s.enc.buf) = [] ∧
        ∃ u, exec i { s with enc := { s.enc with buf := [] } } = .next u ∧ t.enc = u.enc))

/-- A word the block offers stays offered until it is taken (R60): a byte on `tx`, an item on
`dout`. -/
def Obligations.OfferedOutputIsHeld : Prop :=
  ∀ s t : State, s.now.rst = false → step s = .next t →
    (txValid s = true → s.now.txReady = false → txValid t = true ∧ txData t = txData s) ∧
    (doutValid s = true → s.now.doutReady = false → doutValid t = true ∧ doutWord t = doutWord s)

/-- The expansion of `ENC.FRAME p` sends exactly `encode(p)`, in any environment, frames back to back
(R86): if in `k` cycles without reset ENC accepts the commands of the frames `ps`, one after
another, then exactly the frames' bytes have joined the wire, no fault was raised, and no frame is
open. Once the buffer is empty, all of them are in the `tx` output sequence. -/
def Obligations.FramesSendTheirEncoding : Prop :=
  ∀ (k : Nat) (s t : State) (ps : List (List Byte)),
    s.enc.inFrame = false → throughout noReset k s → reaches k s t →
    acceptedIn acceptedEnc k s = ps.flatMap frameCommands →
    t.wire = s.wire ++ ps.flatMap slipEncode ∧ t.enc.inFrame = false ∧
    t.enc.seqerr = s.enc.seqerr ∧ t.enc.illop = s.enc.illop ∧
    (t.enc.buf = [] → t.txOut = s.txOut ++ s.enc.buf ++ ps.flatMap slipEncode)

/-- A frame begins and ends with `0xC0`, and its body holds no `0xC0` and no `0xDB` but as the first
byte of an escape pair (R87). -/
def Obligations.FrameBodyIsEscaped : Prop :=
  ∀ p : List Byte, ∃ body : List Byte, slipEncode p = 0xC0#8 :: body ++ [0xC0#8] ∧
    0xC0#8 ∉ body ∧
    (∀ before after, body = before ++ 0xDB#8 :: after →
      ∃ x rest, after = x :: rest ∧ (x = 0xDC#8 ∨ x = 0xDD#8))

/-- The length of a frame: `n + m + 2` bytes, at most `2n + 2` (R88). -/
def Obligations.FrameLength : Prop :=
  ∀ p : List Byte,
    (slipEncode p).length = p.length + p.countP (fun b => b == 0xC0#8 || b == 0xDB#8) + 2 ∧
    (slipEncode p).length ≤ 2 * p.length + 2

/-- A frame is fully on the wire when `IN_FRAME` and `BUSY` read 0 (R207): what has left is whole
frames. `IN_FRAME` is bit 0 and `BUSY` bit 1 of `enc_status`. -/
def Obligations.NotBusyMeansFramesSent : Prop :=
  ∀ s : State, s.Inv → (outputs s).encStatus.getLsbD 0 = false →
    (outputs s).encStatus.getLsbD 1 = false → wireScan s.txOut = some .outside

/-- Progress of ENC: while the transport takes bytes and the environment holds its word, an offered
command is accepted within two cycles (R90, R92, R192). -/
def Obligations.EncAcceptsWithinTwoCycles : Prop :=
  ∀ s t : State, s.Inv → step s = .next t → noReset s → noReset t → holdsWords s t →
    s.now.encCmdValid = true → s.now.txReady = true → t.now.txReady = true →
    acceptedEnc s = [decode (.enc s.now.encCmd)] ∨ acceptedEnc t = [decode (.enc s.now.encCmd)]

/-- A transport that never takes the byte leaves ENC stuck, and nothing is lost; a consumer that
never takes the item leaves DEC stuck (R191, R91, R112). -/
def Obligations.UntakenOutputSticks : Prop :=
  ∀ (k : Nat) (s t : State), throughout noReset k s → reaches k s t →
    (s.enc.buf ≠ [] → throughout (fun u => u.now.txReady = false) k s →
      t.enc = s.enc ∧ t.txOut = s.txOut ∧ acceptedIn acceptedEnc k s = []) ∧
    (s.dec.obuf ≠ none → throughout (fun u => u.now.doutReady = false) k s →
      t.dec = s.dec ∧ t.doutOut = s.doutOut ∧ acceptedIn acceptedDec k s = [])

/-! ### DEC -/

/-- `DEC.BYTE b` in each phase (R102): the word, the phase, the item emitted, the status word. -/
def Obligations.DecByteByPhase : Prop :=
  ∀ (s : State) (b : Byte), s.dec.obuf = none →
    decode (.dec (0x000#9 ||| b.setWidth 9)) = .decByte b ∧
    ∃ t, exec (.decByte b) s = .next t ∧
      (s.dec.phase = .header → b = 0xC0#8 →
        t = { s with dec := { phase := .body, obuf := none } }) ∧
      (s.dec.phase = .header → b ≠ 0xC0#8 →
        t = { s with dec := { phase := .skip, obuf := some 0x101#9 } }) ∧
      (s.dec.phase = .body → b = 0xC0#8 →
        t = { s with dec := { phase := .skip, obuf := some 0x100#9 } }) ∧
      (s.dec.phase = .body → b = 0xDB#8 →
        t = { s with dec := { phase := .escape, obuf := none } }) ∧
      (s.dec.phase = .body → b ≠ 0xC0#8 → b ≠ 0xDB#8 →
        t = { s with dec := { phase := .body, obuf := some (b.setWidth 9) } }) ∧
      (s.dec.phase = .escape → b = 0xDC#8 →
        t = { s with dec := { phase := .body, obuf := some 0x0C0#9 } }) ∧
      (s.dec.phase = .escape → b = 0xDD#8 →
        t = { s with dec := { phase := .body, obuf := some 0x0DB#9 } }) ∧
      (s.dec.phase = .escape → b ≠ 0xDC#8 → b ≠ 0xDD#8 →
        t = { s with dec := { phase := .skip, obuf := some 0x102#9 } }) ∧
      (s.dec.phase = .skip → t = s) ∧
      (outputs t).decStatus.extractLsb' 0 2 =
        (match t.dec.phase with
         | .header => 0#2
         | .body => 1#2
         | .escape => 2#2
         | .skip => 3#2) ∧
      ((outputs t).decStatus.getLsbD 2 = true ↔ t.dec.obuf ≠ none)

/-- `DEC.END` in each phase, for every `DATA` (R103). -/
def Obligations.DecEndByPhase : Prop :=
  ∀ (s : State) (d : Byte), s.dec.obuf = none →
    decode (.dec (0x100#9 ||| d.setWidth 9)) = .decEnd d ∧
    ∃ t, exec (.decEnd d) s = .next t ∧
      (s.dec.phase = .header →
        t = { s with dec := { phase := .header, obuf := some 0x101#9 } }) ∧
      (s.dec.phase = .body ∨ s.dec.phase = .escape →
        t = { s with dec := { phase := .header, obuf := some 0x103#9 } }) ∧
      (s.dec.phase = .skip → t = { s with dec := { phase := .header, obuf := none } }) ∧
      (outputs t).decStatus.extractLsb' 0 2 = 0#2 ∧
      ((outputs t).decStatus.getLsbD 2 = true ↔ t.dec.obuf ≠ none)

/-- The `rx` and `dout` ports in every cycle, and at an edge outside reset (R110, R111, R112): when DEC
is ready, when it accepts the offered word, and what the edge makes of its output register. -/
def Obligations.DecPortEdge : Prop :=
  ∀ s : State,
    (rxReady s = true ↔ s.now.rst = false ∧ (s.dec.obuf = none ∨ s.now.doutReady = true)) ∧
    (acceptedDec s = [decode (.dec s.now.rxWord)] ↔
      s.now.rxValid = true ∧ rxReady s = true) ∧
    (acceptedDec s = [] ↔ s.now.rxValid = false ∨ rxReady s = false) ∧
    (doutValid s = true ↔ s.dec.obuf ≠ none) ∧
    (∀ x, s.dec.obuf = some x → doutWord s = x) ∧
    (s.now.rst = false → ∃ t, step s = .next t ∧
      t.doutOut = s.doutOut ++ (if doutValid s && s.now.doutReady then [doutWord s] else []) ∧
      (acceptedDec s = [] →
        t.dec = { s.dec with
          obuf := if doutValid s && s.now.doutReady then none else s.dec.obuf }) ∧
      (∀ i, acceptedDec s = [i] →
        (if doutValid s && s.now.doutReady then none else s.dec.obuf) = none ∧
        ∃ u, exec i { s with dec := { s.dec with obuf := none } } = .next u ∧ t.dec = u.dec))

/-- What deliveries produce (R104, R107), in any environment: if in `k` cycles without reset DEC
accepts the words of the deliveries `ds`, one after another, starting in `HEADER`, then exactly
each delivery's items have been emitted, and DEC is in `HEADER` again. The items of a delivery that
`decode` answers `Ok(p)` are the bytes of `p` and `OK`; of one it answers with an error, the bytes
decoded before it returned and the error's code. -/
def Obligations.DeliveriesProduceTheirItems : Prop :=
  (∀ (k : Nat) (s t : State) (ds : List (List Byte)),
    s.dec.phase = .header → throughout noReset k s → reaches k s t →
    acceptedIn acceptedDec k s = ds.flatMap deliveryCommands →
    t.items = s.items ++ ds.flatMap deliveryItems ∧ t.dec.phase = .header ∧
    (t.dec.obuf = none →
      t.doutOut = s.doutOut ++ s.dec.obuf.toList ++ ds.flatMap deliveryItems)) ∧
  (∀ d p : List Byte, slipDecode d = .ok p →
    deliveryItems d = p.map doutByte ++ [doutResult .ok]) ∧
  (∀ (d : List Byte) (e : DecodeResult), slipDecode d = .error e →
    deliveryItems d = (slipDecodeTrace d).1.map doutByte ++ [doutResult e] ∧
    (e = .frameMissingHeader → (slipDecodeTrace d).1 = []))

/-- Each delivery has exactly one result item, and it is the last (R105). What stands after the
byte that decided the outcome is never examined. -/
def Obligations.OneResultItemAndLast : Prop :=
  ∀ d : List Byte,
    (∃ bytes : List Byte, deliveryItems d = bytes.map doutByte ++ [doutResult (slipDecodeTrace d).2]) ∧
    (deliveryItems d).countP (fun x => dout9Kind x == 1#1) = 1 ∧
    ((slipDecodeTrace d).2 = .ok ∨ (slipDecodeTrace d).2 = .invalidEscapeSequence ∨
        ((slipDecodeTrace d).2 = .frameMissingHeader ∧ d ≠ []) →
      ∀ more, deliveryItems (d ++ more) = deliveryItems d)

/-- The round trip holds for every payload, also when bytes follow the frame in the same delivery
(R108, R100; a fragment followed by another frame, R213). -/
def Obligations.SlipRoundTrip : Prop :=
  ∀ p more : List Byte,
    slipDecode (slipEncode p) = .ok p ∧
    slipDecode (slipEncode p ++ more) = .ok p ∧
    deliveryItems (slipEncode p) = p.map doutByte ++ [0x100#9]

/-- A consumer that keeps the bytes of a delivery only when its result is `OK` sees exactly the
source's `decode`, delivery by delivery (R106). -/
def Obligations.ConsumerSeesDecode : Prop :=
  ∀ ds : List (List Byte),
    consumerView [] (ds.flatMap deliveryItems) =
      ds.map (fun d =>
        match slipDecode d with
        | .ok p => (0x00#8, p)
        | .error e => (resultCode e, []))

/-- Payloads survive the link: what one block's ENC puts on the wire for the frame of `p`, delivered
to another block's DEC, comes out of it as `p` and `OK`, in any two environments (R86, R104,
R108). -/
def Obligations.PayloadSurvivesTheLink : Prop :=
  ∀ (k k' : Nat) (s t s' t' : State) (p w : List Byte),
    s.enc.inFrame = false → throughout noReset k s → reaches k s t →
    acceptedIn acceptedEnc k s = frameCommands p → t.wire = s.wire ++ w →
    s'.dec.phase = .header → throughout noReset k' s' → reaches k' s' t' →
    acceptedIn acceptedDec k' s' = deliveryCommands w →
    t'.items = s'.items ++ p.map doutByte ++ [doutResult .ok] ∧ t'.dec.phase = .header

/-! ### CKS -/

/-- `CKS.WORD w` (R131). -/
def Obligations.CksWordXorsAccumulator : Prop :=
  ∀ (s : State) (w : Word32),
    decode (.cks (0x000000000#34 ||| w.setWidth 34)) = .cksWord w ∧
    ∃ t, exec (.cksWord w) s = .next t ∧
      t = { s with cks := { s.cks with acc := s.cks.acc ^^^ w } } ∧
      (outputs t).cksAcc = s.cks.acc ^^^ w ∧ (outputs t).cksStatus = (outputs s).cksStatus

/-- `CKS.INIT s` (R132): the old accumulator is discarded whatever it held. -/
def Obligations.CksInitLoadsSeed : Prop :=
  ∀ (s : State) (seed : Word32),
    decode (.cks (0x100000000#34 ||| seed.setWidth 34)) = .cksInit seed ∧
    ∃ t, exec (.cksInit seed) s = .next t ∧ t = { s with cks := { s.cks with acc := seed } } ∧
      (outputs t).cksAcc = seed

/-- `CKS.INITM` (R133), for every `DATA`: the same as `CKS.INIT CHECKSUM_MAGIC`. -/
def Obligations.CksInitmLoadsMagic : Prop :=
  ∀ (s : State) (d : Word32),
    decode (.cks (0x200000000#34 ||| d.setWidth 34)) = .cksInitm d ∧
    ∃ t, exec (.cksInitm d) s = .next t ∧
      t = { s with cks := { s.cks with acc := s.cfg.checksumMagic } } ∧
      (outputs t).cksAcc = s.cfg.checksumMagic ∧
      exec (.cksInit s.cfg.checksumMagic) s = .next t

/-- The reserved checksum opcode (R134): `ILLOP` is set, the accumulator is unchanged, and the run
counts as faulted. -/
def Obligations.CksReservedSetsOnlyIllop : Prop :=
  ∀ (s : State) (d : Word32),
    decode (.cks (0x300000000#34 ||| d.setWidth 34)) = .cksReserved d ∧
    ∃ t, exec (.cksReserved d) s = .next t ∧ t = { s with cks := { s.cks with illop := true } } ∧
      t.faulted = true

/-- The checksum port (R138, R139): ready exactly outside reset; the command is applied at its edge;
`cks_acc` shows the register, so in the cycle of the command itself still the value before it. -/
def Obligations.CksPortEdge : Prop :=
  ∀ s : State, (cksCmdReady s = true ↔ s.now.rst = false) ∧ (outputs s).cksAcc = s.cks.acc ∧
    (s.now.rst = false → ∃ t, step s = .next t ∧
      (s.now.cksCmdValid = false → t.cks = s.cks) ∧
      (s.now.cksCmdValid = true →
        ∃ u, exec (decode (.cks s.now.cksCmd)) s = .next u ∧ t.cks = u.cks ∧
          (outputs t).cksAcc = u.cks.acc))

/-- `CKS.SUM s, words` and `CKS.SUMM words` leave the checksum in the accumulator, in any environment
in which CKS accepts exactly those commands without a reset between them (R135). -/
def Obligations.SumLeavesChecksum : Prop :=
  ∀ (k : Nat) (s t : State) (seed : Word32) (ws : List Word32),
    throughout noReset k s → reaches k s t →
    (acceptedIn acceptedCks k s = sumCommands seed ws → t.cks.acc = checksum ws seed) ∧
    (acceptedIn acceptedCks k s = summCommands ws →
      t.cks.acc = checksum ws s.cfg.checksumMagic)

/-- The laws of the checksum (R136). -/
def Obligations.ChecksumLaws : Prop :=
  ∀ (ws vs : List Word32) (w seed : Word32),
    (ws.Perm vs → checksum ws seed = checksum vs seed) ∧
    (∀ n, checksum (List.replicate (2 * n) w ++ ws) seed = checksum ws seed) ∧
    checksum ws seed = seed ^^^ checksum ws 0 ∧
    (∀ (vseed : Word32) (bit : Nat), seed.getLsbD bit = vseed.getLsbD bit →
      ws.map (fun x => x.getLsbD bit) = vs.map (fun x => x.getLsbD bit) →
      (checksum ws seed).getLsbD bit = (checksum vs vseed).getLsbD bit)

/-- One zero-extended byte per word gives the byte-wise checksum in bits 7:0 and the seed in the
others (R137). -/
def Obligations.ZeroExtendedBytesChecksum : Prop :=
  ∀ (bytes : List Byte) (seed : Word32),
    (checksum (bytes.map (fun b => b.setWidth 32)) seed).extractLsb' 0 8 =
      bytes.foldl (fun acc b => acc ^^^ b) (seed.extractLsb' 0 8) ∧
    (checksum (bytes.map (fun b => b.setWidth 32)) seed).extractLsb' 8 24 = seed.extractLsb' 8 24

/-! ### RSQ -/

/-- `RSQ.ENTER f` at its accepting edge (R151), with the transport open and closed. -/
def Obligations.RsqEnterStartsSequence : Prop :=
  ∀ (s : State) (f : Bool), s.rsq.phase = .idle →
    decode (.rsq (BitVec.ofBool f)) = .rsqEnter f ∧
    ∃ t, exec (.rsqEnter f) s = .next t ∧
      (s.now.tpIsOpen = true →
        t = { s with rsq := { s.rsq with
          flash := f, done := false, dtr := false, rts := true, timer := s.cfg.holdCycles,
          phase := .holdReset } }) ∧
      (s.now.tpIsOpen = false →
        t = { s with rsq := { s.rsq with
          flash := f, done := false, openReq := true, phase := .openWait } })

/-- `rsq_cmd_ready` (R150): a command is accepted only outside reset and in `IDLE`; offered during a
sequence it is not taken and does not disturb it. -/
def Obligations.RsqReadyOnlyWhenIdle : Prop :=
  ∀ s : State,
    (rsqCmdReady s = true ↔ s.now.rst = false ∧ s.rsq.phase = .idle) ∧
    (s.rsq.phase ≠ .idle → acceptedRsq s = []) ∧
    (s.rsq.phase ≠ .idle → s.now.rst = false → ∃ t, step s = .next t ∧
      t.rsq = rsqEdge s.cfg s.now s.rsq)

/-- `IDLE` without a command, and `OPEN_WAIT` (R152, R153). On `TransportError` the lines keep their
levels. -/
def Obligations.RsqIdleAndOpenWait : Prop :=
  ∀ s : State, s.now.rst = false → acceptedRsq s = [] → ∃ t, step s = .next t ∧
    (s.rsq.phase = .idle → t.rsq = { s.rsq with done := false }) ∧
    (s.rsq.phase = .openWait → s.now.tpOpenAck = false → t.rsq = { s.rsq with done := false }) ∧
    (s.rsq.phase = .openWait → s.now.tpOpenAck = true → s.now.tpOpenOk = true →
      t.rsq = { s.rsq with
        openReq := false, done := false, dtr := false, rts := true, timer := s.cfg.holdCycles,
        phase := .holdReset }) ∧
    (s.rsq.phase = .openWait → s.now.tpOpenAck = true → s.now.tpOpenOk = false →
      t.rsq = { s.rsq with
        openReq := false, result := .transportError, done := true, phase := .idle })

/-- The hold phases (R154, R155, R156), with the timer in the range R154 gives it: it counts down,
moves on at 1, and stays in that range while a hold lasts. -/
def Obligations.RsqHoldPhases : Prop :=
  ∀ s : State, s.now.rst = false → 1 ≤ s.rsq.timer → s.rsq.timer ≤ s.cfg.holdCycles →
    ∃ t, step s = .next t ∧
      (s.rsq.phase = .holdReset ∨ s.rsq.phase = .holdTarget → s.rsq.timer ≠ 1 →
        t.rsq = { s.rsq with timer := s.rsq.timer - 1, done := false } ∧
        1 ≤ t.rsq.timer ∧ t.rsq.timer ≤ s.cfg.holdCycles) ∧
      (s.rsq.phase = .holdReset → s.rsq.timer = 1 →
        t.rsq = { s.rsq with
          dtr := s.rsq.flash, rts := false, timer := s.cfg.holdCycles, phase := .holdTarget,
          done := false } ∧
        50 ≤ t.rsq.timer) ∧
      (s.rsq.phase = .holdTarget → s.rsq.timer = 1 →
        t.rsq = { s.rsq with
          dtr := false, timer := 0, result := .ok, done := true, phase := .idle })

/-- `RSQ.done` is a one-cycle pulse: it is 1 after an edge outside reset exactly when that edge raised
`TransportError` or released, and `RSQ.result` changes at no other edge (R157). -/
def Obligations.DoneIsPulseAtCompletion : Prop :=
  ∀ s t : State, s.now.rst = false → step s = .next t →
    (t.rsq.done = true ↔
      (s.rsq.phase = .openWait ∧ s.now.tpOpenAck = true ∧ s.now.tpOpenOk = false) ∨
      (s.rsq.phase = .holdTarget ∧ s.rsq.timer = 1)) ∧
    (t.rsq.done = false → t.rsq.result = s.rsq.result)

/-- What RSQ samples (R159): nothing in the hold phases, `tp_open_ack` and `tp_open_ok` only in
`OPEN_WAIT`, `tp_is_open` only at the accepting edge. -/
def Obligations.RsqSamplesOnlyWhereStated : Prop :=
  ∀ s s' t t' : State, s.rsq = s'.rsq → s.cfg = s'.cfg → s.now.rst = false → s'.now.rst = false →
    step s = .next t → step s' = .next t' →
    (s.rsq.phase = .holdReset ∨ s.rsq.phase = .holdTarget → t.rsq = t'.rsq) ∧
    (s.rsq.phase = .idle → acceptedRsq s = acceptedRsq s' →
      s.now.tpIsOpen = s'.now.tpIsOpen → t.rsq = t'.rsq) ∧
    (s.rsq.phase = .idle → acceptedRsq s = [] → acceptedRsq s' = [] → t.rsq = t'.rsq) ∧
    (s.rsq.phase = .openWait → s.now.tpOpenAck = s'.now.tpOpenAck →
      s.now.tpOpenOk = s'.now.tpOpenOk → t.rsq = t'.rsq) ∧
    (s.rsq.phase = .openWait → s.now.tpOpenAck = false → s'.now.tpOpenAck = false →
      t.rsq = t'.rsq)

/-- `OPEN_WAIT` has no time-out (R164): without an acknowledge RSQ stays as it is, asks on, and
accepts no command, for any number of cycles until `rst`. -/
def Obligations.OpenWaitNeverTimesOut : Prop :=
  ∀ (k : Nat) (s t : State),
    s.rsq.phase = .openWait → s.rsq.openReq = true → s.rsq.done = false →
    throughout noReset k s → throughout (fun u => u.now.tpOpenAck = false) k s → reaches k s t →
    t.rsq = s.rsq ∧ (outputs t).tpOpenReq = true ∧ acceptedIn acceptedRsq k s = [] ∧
    acceptedRsq t = []

/-- The waveform of a sequence (R158), in any environment. Let the edge of `s` enter `HOLD_RESET`
for the argument `f`, from `IDLE` with the transport open or from `OPEN_WAIT` with a successful
acknowledge, and let no later command be accepted. With `H = HOLD_CYCLES`, cycles 1 to `H` after it
show DTR=0 RTS=1, cycles `H+1` to `2H` DTR=`f` RTS=0, and from cycle `2H+1` on both are 0 and RSQ is
idle, with `DONE` in cycle `2H+1` only and the result OK. -/
def Obligations.SequenceWaveform : Prop :=
  ∀ (j : Nat) (s t : State) (f : Bool),
    (s.rsq.phase = .idle ∧ acceptedRsq s = [.rsqEnter f] ∧ s.now.tpIsOpen = true) ∨
      (s.rsq.phase = .openWait ∧ s.rsq.flash = f ∧ s.now.tpOpenAck = true ∧
        s.now.tpOpenOk = true) →
    1 ≤ j → throughout noReset j s → reaches j s t →
    acceptedIn acceptedRsq j s = acceptedRsq s →
    (j ≤ s.cfg.holdCycles →
      (outputs t).dtr = false ∧ (outputs t).rts = true ∧ t.rsq.phase = .holdReset) ∧
    (s.cfg.holdCycles < j → j ≤ 2 * s.cfg.holdCycles →
      (outputs t).dtr = f ∧ (outputs t).rts = false ∧ t.rsq.phase = .holdTarget) ∧
    (2 * s.cfg.holdCycles < j →
      (outputs t).dtr = false ∧ (outputs t).rts = false ∧ t.rsq.phase = .idle ∧
      t.rsq.result = .ok) ∧
    (t.rsq.done = true ↔ j = 2 * s.cfg.holdCycles + 1)

/-! ### The invariant -/

/-- The invariant holds of the reset state. -/
def Obligations.InvariantAtReset : Prop := State.reset.Inv

/-- Every step keeps the invariant, whatever the environment does: at most an escape pair waits in
`ENC.buf` (R23), the wire since reset is whole frames with one more open exactly when `in_frame` is
1 (R22, R87), every item is one of R65 and deliveries are closed by their result (R105), the lines
follow the phase and the timer never leaves 1 to `HOLD_CYCLES` in a hold (R154, R158). -/
def Obligations.StepKeepsInvariant : Prop :=
  ∀ s t : State, s.Inv → step s = .next t → t.Inv

/-- The timer register never wraps and never outgrows `TW` bits: in every state of the invariant its
value is below `2^TW`, and `TW` is the least such width for `HOLD_CYCLES` (R6, R154). -/
def Obligations.TimerFitsItsRegister : Prop :=
  ∀ s : State, s.Inv →
    s.rsq.timer < 2 ^ s.cfg.timerWidth ∧ s.cfg.holdCycles < 2 ^ s.cfg.timerWidth ∧
    (∀ n, s.cfg.holdCycles < 2 ^ n → s.cfg.timerWidth ≤ n) ∧ 50 ≤ s.cfg.holdCycles
end

