-- ==== Sys2Proof/Laws/Decode.lean ====
section
/-! SUPPORT. The fields of the command words and their composition undo each other. -/

namespace Sys2Proof

theorem cks34Word_bit (op : BitVec 2) (data : Word32) (i : Nat) :
    (cks34Word op data).getLsbD i = if i < 32 then data.getLsbD i else op.getLsbD (i - 32) := by
  rw [show (cks34Word op data).getLsbD i = (op ++ data).getLsbD i from rfl]
  exact BitVec.getLsbD_append

theorem cks34Op_word (op : BitVec 2) (data : Word32) : cks34Op (cks34Word op data) = op := by
  apply BitVec.eq_of_getLsbD_eq
  intro i hi
  simp [cks34Op, cks34Word_bit, hi]

theorem cks34Data_word (op : BitVec 2) (data : Word32) : cks34Data (cks34Word op data) = data := by
  apply BitVec.eq_of_getLsbD_eq
  intro i hi
  simp [cks34Data, cks34Word_bit, hi]

theorem cks34Word_fields (w : BitVec 34) : cks34Word (cks34Op w) (cks34Data w) = w := by
  apply BitVec.eq_of_getLsbD_eq
  intro i hi
  rw [cks34Word_bit]
  by_cases h : i < 32
  · simp [cks34Data, h]
  · have h2 : i - 32 < 2 := by omega
    have h3 : 32 + (i - 32) = i := by omega
    simp [cks34Op, h, h2, h3]

theorem enc10Word_fields (w : BitVec 10) : enc10Word (enc10Op w) (enc10Data w) = w := by
  revert w; decide

theorem dec9Word_fields (w : BitVec 9) : dec9Word (dec9Kind w) (dec9Data w) = w := by
  revert w; decide

end Sys2Proof
end

