-- ==== Sys2Proof/Laws/State.lean ====
section
/-! SUPPORT. One lemma for each field of the state under each update of it. -/

namespace Sys2Proof.Machine

/-! ### `State.withEnc` -/

@[simp] theorem State.withEnc_enc (s : State) (e : Enc) : (s.withEnc e).enc = e := rfl
@[simp] theorem State.withEnc_dec (s : State) (e : Enc) : (s.withEnc e).dec = s.dec := rfl
@[simp] theorem State.withEnc_cks (s : State) (e : Enc) : (s.withEnc e).cks = s.cks := rfl
@[simp] theorem State.withEnc_rsq (s : State) (e : Enc) : (s.withEnc e).rsq = s.rsq := rfl
@[simp] theorem State.withEnc_txOut (s : State) (e : Enc) : (s.withEnc e).txOut = s.txOut := rfl
@[simp] theorem State.withEnc_doutOut (s : State) (e : Enc) : (s.withEnc e).doutOut = s.doutOut := rfl
@[simp] theorem State.withEnc_cfg (s : State) (e : Enc) : (s.withEnc e).cfg = s.cfg := rfl
@[simp] theorem State.withEnc_inputs (s : State) (e : Enc) : (s.withEnc e).inputs = s.inputs := rfl
@[simp] theorem State.withEnc_cycle (s : State) (e : Enc) : (s.withEnc e).cycle = s.cycle := rfl
@[simp] theorem State.withEnc_now (s : State) (e : Enc) : (s.withEnc e).now = s.now := rfl

/-! ### `State.withDec` -/

@[simp] theorem State.withDec_enc (s : State) (d : Dec) : (s.withDec d).enc = s.enc := rfl
@[simp] theorem State.withDec_dec (s : State) (d : Dec) : (s.withDec d).dec = d := rfl
@[simp] theorem State.withDec_cks (s : State) (d : Dec) : (s.withDec d).cks = s.cks := rfl
@[simp] theorem State.withDec_rsq (s : State) (d : Dec) : (s.withDec d).rsq = s.rsq := rfl
@[simp] theorem State.withDec_txOut (s : State) (d : Dec) : (s.withDec d).txOut = s.txOut := rfl
@[simp] theorem State.withDec_doutOut (s : State) (d : Dec) : (s.withDec d).doutOut = s.doutOut := rfl
@[simp] theorem State.withDec_cfg (s : State) (d : Dec) : (s.withDec d).cfg = s.cfg := rfl
@[simp] theorem State.withDec_inputs (s : State) (d : Dec) : (s.withDec d).inputs = s.inputs := rfl
@[simp] theorem State.withDec_cycle (s : State) (d : Dec) : (s.withDec d).cycle = s.cycle := rfl
@[simp] theorem State.withDec_now (s : State) (d : Dec) : (s.withDec d).now = s.now := rfl

/-! ### `State.withCks` -/

@[simp] theorem State.withCks_enc (s : State) (c : Cks) : (s.withCks c).enc = s.enc := rfl
@[simp] theorem State.withCks_dec (s : State) (c : Cks) : (s.withCks c).dec = s.dec := rfl
@[simp] theorem State.withCks_cks (s : State) (c : Cks) : (s.withCks c).cks = c := rfl
@[simp] theorem State.withCks_rsq (s : State) (c : Cks) : (s.withCks c).rsq = s.rsq := rfl
@[simp] theorem State.withCks_txOut (s : State) (c : Cks) : (s.withCks c).txOut = s.txOut := rfl
@[simp] theorem State.withCks_doutOut (s : State) (c : Cks) : (s.withCks c).doutOut = s.doutOut := rfl
@[simp] theorem State.withCks_cfg (s : State) (c : Cks) : (s.withCks c).cfg = s.cfg := rfl
@[simp] theorem State.withCks_inputs (s : State) (c : Cks) : (s.withCks c).inputs = s.inputs := rfl
@[simp] theorem State.withCks_cycle (s : State) (c : Cks) : (s.withCks c).cycle = s.cycle := rfl
@[simp] theorem State.withCks_now (s : State) (c : Cks) : (s.withCks c).now = s.now := rfl

/-! ### `State.withRsq` -/

@[simp] theorem State.withRsq_enc (s : State) (r : Rsq) : (s.withRsq r).enc = s.enc := rfl
@[simp] theorem State.withRsq_dec (s : State) (r : Rsq) : (s.withRsq r).dec = s.dec := rfl
@[simp] theorem State.withRsq_cks (s : State) (r : Rsq) : (s.withRsq r).cks = s.cks := rfl
@[simp] theorem State.withRsq_rsq (s : State) (r : Rsq) : (s.withRsq r).rsq = r := rfl
@[simp] theorem State.withRsq_txOut (s : State) (r : Rsq) : (s.withRsq r).txOut = s.txOut := rfl
@[simp] theorem State.withRsq_doutOut (s : State) (r : Rsq) : (s.withRsq r).doutOut = s.doutOut := rfl
@[simp] theorem State.withRsq_cfg (s : State) (r : Rsq) : (s.withRsq r).cfg = s.cfg := rfl
@[simp] theorem State.withRsq_inputs (s : State) (r : Rsq) : (s.withRsq r).inputs = s.inputs := rfl
@[simp] theorem State.withRsq_cycle (s : State) (r : Rsq) : (s.withRsq r).cycle = s.cycle := rfl
@[simp] theorem State.withRsq_now (s : State) (r : Rsq) : (s.withRsq r).now = s.now := rfl

/-! ### `State.withTxOut` -/

@[simp] theorem State.withTxOut_enc (s : State) (bs : List Byte) : (s.withTxOut bs).enc = s.enc := rfl
@[simp] theorem State.withTxOut_dec (s : State) (bs : List Byte) : (s.withTxOut bs).dec = s.dec := rfl
@[simp] theorem State.withTxOut_cks (s : State) (bs : List Byte) : (s.withTxOut bs).cks = s.cks := rfl
@[simp] theorem State.withTxOut_rsq (s : State) (bs : List Byte) : (s.withTxOut bs).rsq = s.rsq := rfl
@[simp] theorem State.withTxOut_txOut (s : State) (bs : List Byte) : (s.withTxOut bs).txOut = bs := rfl
@[simp] theorem State.withTxOut_doutOut (s : State) (bs : List Byte) : (s.withTxOut bs).doutOut = s.doutOut := rfl
@[simp] theorem State.withTxOut_cfg (s : State) (bs : List Byte) : (s.withTxOut bs).cfg = s.cfg := rfl
@[simp] theorem State.withTxOut_inputs (s : State) (bs : List Byte) : (s.withTxOut bs).inputs = s.inputs := rfl
@[simp] theorem State.withTxOut_cycle (s : State) (bs : List Byte) : (s.withTxOut bs).cycle = s.cycle := rfl
@[simp] theorem State.withTxOut_now (s : State) (bs : List Byte) : (s.withTxOut bs).now = s.now := rfl

/-! ### `State.withDoutOut` -/

@[simp] theorem State.withDoutOut_enc (s : State) (xs : List DoutItem) : (s.withDoutOut xs).enc = s.enc := rfl
@[simp] theorem State.withDoutOut_dec (s : State) (xs : List DoutItem) : (s.withDoutOut xs).dec = s.dec := rfl
@[simp] theorem State.withDoutOut_cks (s : State) (xs : List DoutItem) : (s.withDoutOut xs).cks = s.cks := rfl
@[simp] theorem State.withDoutOut_rsq (s : State) (xs : List DoutItem) : (s.withDoutOut xs).rsq = s.rsq := rfl
@[simp] theorem State.withDoutOut_txOut (s : State) (xs : List DoutItem) : (s.withDoutOut xs).txOut = s.txOut := rfl
@[simp] theorem State.withDoutOut_doutOut (s : State) (xs : List DoutItem) : (s.withDoutOut xs).doutOut = xs := rfl
@[simp] theorem State.withDoutOut_cfg (s : State) (xs : List DoutItem) : (s.withDoutOut xs).cfg = s.cfg := rfl
@[simp] theorem State.withDoutOut_inputs (s : State) (xs : List DoutItem) : (s.withDoutOut xs).inputs = s.inputs := rfl
@[simp] theorem State.withDoutOut_cycle (s : State) (xs : List DoutItem) : (s.withDoutOut xs).cycle = s.cycle := rfl
@[simp] theorem State.withDoutOut_now (s : State) (xs : List DoutItem) : (s.withDoutOut xs).now = s.now := rfl

/-! ### `State.advance` -/

@[simp] theorem State.advance_enc (s : State) : s.advance.enc = s.enc := rfl
@[simp] theorem State.advance_dec (s : State) : s.advance.dec = s.dec := rfl
@[simp] theorem State.advance_cks (s : State) : s.advance.cks = s.cks := rfl
@[simp] theorem State.advance_rsq (s : State) : s.advance.rsq = s.rsq := rfl
@[simp] theorem State.advance_txOut (s : State) : s.advance.txOut = s.txOut := rfl
@[simp] theorem State.advance_doutOut (s : State) : s.advance.doutOut = s.doutOut := rfl
@[simp] theorem State.advance_cfg (s : State) : s.advance.cfg = s.cfg := rfl
@[simp] theorem State.advance_inputs (s : State) : s.advance.inputs = s.inputs.tail := rfl
@[simp] theorem State.advance_cycle (s : State) : s.advance.cycle = s.cycle + 1 := rfl

/-! ### `resetEdge` -/

@[simp] theorem resetEdge_enc (s : State) : (resetEdge s).enc = Enc.reset := rfl
@[simp] theorem resetEdge_dec (s : State) : (resetEdge s).dec = Dec.reset := rfl
@[simp] theorem resetEdge_cks (s : State) : (resetEdge s).cks = Cks.reset s.cfg := rfl
@[simp] theorem resetEdge_rsq (s : State) : (resetEdge s).rsq = Rsq.reset := rfl
@[simp] theorem resetEdge_txOut (s : State) : (resetEdge s).txOut = [] := rfl
@[simp] theorem resetEdge_doutOut (s : State) : (resetEdge s).doutOut = [] := rfl
@[simp] theorem resetEdge_cfg (s : State) : (resetEdge s).cfg = s.cfg := rfl
@[simp] theorem resetEdge_inputs (s : State) : (resetEdge s).inputs = s.inputs := rfl
@[simp] theorem resetEdge_cycle (s : State) : (resetEdge s).cycle = s.cycle := rfl

end Sys2Proof.Machine
end

