-- ==== Sys2Proof/Laws/Edge.lean ====
section
/-! SUPPORT. What the edge does to each field before its accepted commands (spec/40_slip_encoder.md
R91, 41_slip_decoder.md R111, 43_reset_sequencer.md R152 to R157), said once. -/

namespace Sys2Proof.Machine

/-- `rest` of R91: the buffer without the byte that leaves. -/
theorem quietEdge_enc (s : State) :
    (quietEdge s).enc =
      { s.enc with buf := if s.now.txReady then s.enc.buf.tail else s.enc.buf } := by
  have h : (txEdge s).enc =
      { s.enc with buf := if s.now.txReady then s.enc.buf.tail else s.enc.buf } := by
    rcases s with ⟨⟨f, buf, q, l⟩, _⟩
    cases buf <;> simp only [txEdge] <;> split <;> rfl
  have h2 (u : State) : (doutEdge u).enc = u.enc := by
    unfold doutEdge; split
    · split <;> rfl
    · rfl
  simp [quietEdge, sequencerEdge, h2, h]

/-- The byte that leaves joins the output sequence (R91). -/
theorem quietEdge_txOut (s : State) :
    (quietEdge s).txOut = s.txOut ++ (if s.now.txReady then s.enc.buf.take 1 else []) := by
  have h : (txEdge s).txOut = s.txOut ++ (if s.now.txReady then s.enc.buf.take 1 else []) := by
    rcases s with ⟨⟨f, buf, q, l⟩, _⟩
    cases buf <;> simp only [txEdge] <;> split <;> simp
  have h2 (u : State) : (doutEdge u).txOut = u.txOut := by
    unfold doutEdge; split
    · split <;> rfl
    · rfl
  simp [quietEdge, sequencerEdge, h2, h]

theorem txEdge_now (s : State) : (txEdge s).now = s.now := by
  unfold txEdge; split
  · split <;> rfl
  · rfl

theorem txEdge_dec (s : State) : (txEdge s).dec = s.dec := by
  unfold txEdge; split
  · split <;> rfl
  · rfl

theorem txEdge_doutOut (s : State) : (txEdge s).doutOut = s.doutOut := by
  unfold txEdge; split
  · split <;> rfl
  · rfl

/-- `left` of R111: the output register without the item that leaves. -/
theorem quietEdge_dec (s : State) :
    (quietEdge s).dec =
      { s.dec with obuf := if s.now.doutReady then none else s.dec.obuf } := by
  have h (u : State) : (doutEdge u).dec =
      { u.dec with obuf := if u.now.doutReady then none else u.dec.obuf } := by
    rcases u with ⟨_, ⟨p, obuf⟩, _⟩
    cases obuf <;> simp only [doutEdge] <;> split <;> rfl
  simp [quietEdge, sequencerEdge, h, txEdge_now, txEdge_dec]

/-- The item that leaves joins the output sequence (R110). -/
theorem quietEdge_doutOut (s : State) :
    (quietEdge s).doutOut = s.doutOut ++ (if s.now.doutReady then s.dec.obuf.toList else []) := by
  have h (u : State) : (doutEdge u).doutOut =
      u.doutOut ++ (if u.now.doutReady then u.dec.obuf.toList else []) := by
    rcases u with ⟨_, ⟨p, obuf⟩, _⟩
    cases obuf <;> simp only [doutEdge] <;> split <;> simp
  simp [quietEdge, sequencerEdge, h, txEdge_now, txEdge_dec, txEdge_doutOut]

/-- The fields the two output handshakes leave alone. -/
theorem outputEdges_rest (s : State) :
    (doutEdge (txEdge s)).cks = s.cks ∧ (doutEdge (txEdge s)).rsq = s.rsq ∧
    (doutEdge (txEdge s)).cfg = s.cfg ∧ (doutEdge (txEdge s)).inputs = s.inputs ∧
    (doutEdge (txEdge s)).cycle = s.cycle ∧ (doutEdge (txEdge s)).now = s.now := by
  have hd (u : State) : (doutEdge u).cks = u.cks ∧ (doutEdge u).rsq = u.rsq ∧
      (doutEdge u).cfg = u.cfg ∧ (doutEdge u).inputs = u.inputs ∧
      (doutEdge u).cycle = u.cycle ∧ (doutEdge u).now = u.now := by
    unfold doutEdge; split
    · split <;> exact ⟨rfl, rfl, rfl, rfl, rfl, rfl⟩
    · exact ⟨rfl, rfl, rfl, rfl, rfl, rfl⟩
  have ht : (txEdge s).cks = s.cks ∧ (txEdge s).rsq = s.rsq ∧
      (txEdge s).cfg = s.cfg ∧ (txEdge s).inputs = s.inputs ∧
      (txEdge s).cycle = s.cycle ∧ (txEdge s).now = s.now := by
    unfold txEdge; split
    · split <;> exact ⟨rfl, rfl, rfl, rfl, rfl, rfl⟩
    · exact ⟨rfl, rfl, rfl, rfl, rfl, rfl⟩
  obtain ⟨a, b, c, d, e, f⟩ := hd (txEdge s)
  obtain ⟨a', b', c', d', e', f'⟩ := ht
  exact ⟨a.trans a', b.trans b', c.trans c', d.trans d', e.trans e', f.trans f'⟩

theorem quietEdge_cks (s : State) : (quietEdge s).cks = s.cks := by
  simpa [quietEdge, sequencerEdge] using (outputEdges_rest s).1

theorem quietEdge_cfg (s : State) : (quietEdge s).cfg = s.cfg := by
  simpa [quietEdge, sequencerEdge] using (outputEdges_rest s).2.2.1

theorem quietEdge_inputs (s : State) : (quietEdge s).inputs = s.inputs := by
  simpa [quietEdge, sequencerEdge] using (outputEdges_rest s).2.2.2.1

theorem quietEdge_cycle (s : State) : (quietEdge s).cycle = s.cycle := by
  simpa [quietEdge, sequencerEdge] using (outputEdges_rest s).2.2.2.2.1

theorem quietEdge_now (s : State) : (quietEdge s).now = s.now := by
  simpa [quietEdge, sequencerEdge] using (outputEdges_rest s).2.2.2.2.2

theorem quietEdge_rsq (s : State) : (quietEdge s).rsq = rsqEdge s.cfg s.now s.rsq := by
  obtain ⟨-, hr, hc, -, -, hn⟩ := outputEdges_rest s
  simp [quietEdge, sequencerEdge, hr, hc, hn]

end Sys2Proof.Machine
end

