-- ==== Sys2Proof/Laws/Exec.lean ====
section
/-! SUPPORT. What an instruction does, unit by unit, and what a list of them does: every instruction
answers a next state in which only its own unit may differ (spec/20_memory.md R56). -/

namespace Sys2Proof.Machine

/-- The part of an instruction that concerns ENC. -/
def onEnc : Instr → Enc → Enc
  | .encByte b, e => encTake (encByte b) e
  | .encBegin _, e => encTake encBegin e
  | .encEnd _, e => encTake encEnd e
  | .encReserved _, e => encTake encRaiseIllegal e
  | _, e => e

/-- The part of an instruction that concerns DEC. -/
def onDec : Instr → Dec → Dec
  | .decByte b, d => decTake (decByte b) d
  | .decEnd _, d => decTake decEnd d
  | _, d => d

/-- The part of an instruction that concerns CKS. -/
def onCks (p : Params) : Instr → Cks → Cks
  | .cksWord w, c => cksWord w c
  | .cksInit s, c => cksLoad s c
  | .cksInitm _, c => cksLoad p.checksumMagic c
  | .cksReserved _, c => cksRaiseIllegal c
  | _, c => c

/-- The part of an instruction that concerns RSQ. -/
def onRsq (p : Params) (tpIsOpen : Bool) : Instr → Rsq → Rsq
  | .rsqEnter f, r => rsqTake (rsqEnter p tpIsOpen f) r
  | _, r => r

/-- Everything an instruction can do. -/
theorem exec_eq (i : Instr) (s : State) :
    exec i s =
      .next { s with
        enc := onEnc i s.enc, dec := onDec i s.dec, cks := onCks s.cfg i s.cks,
        rsq := onRsq s.cfg s.now.tpIsOpen i s.rsq } := by
  cases i <;> rfl

theorem exec_next (i : Instr) (s : State) : ∃ t, exec i s = .next t := ⟨_, exec_eq i s⟩

/-- Everything a list of instructions can do. -/
theorem execAll_eq (is : List Instr) (s : State) :
    execAll is s =
      .next { s with
        enc := is.foldl (fun e i => onEnc i e) s.enc
        dec := is.foldl (fun d i => onDec i d) s.dec
        cks := is.foldl (fun c i => onCks s.cfg i c) s.cks
        rsq := is.foldl (fun r i => onRsq s.cfg s.now.tpIsOpen i r) s.rsq } := by
  induction is generalizing s with
  | nil => rfl
  | cons i is ih =>
    simp only [execAll, exec_eq, List.foldl_cons]
    rw [ih]
    rfl

theorem execAll_next (is : List Instr) (s : State) : ∃ t, execAll is s = .next t :=
  ⟨_, execAll_eq is s⟩

/-! ### Folding a unit over another unit's commands does nothing -/

theorem onEnc_other {i : Instr} (h : i.port ≠ .enc) (e : Enc) : onEnc i e = e := by
  cases i <;> first | rfl | exact absurd rfl h

theorem onDec_other {i : Instr} (h : i.port ≠ .dec) (d : Dec) : onDec i d = d := by
  cases i <;> first | rfl | exact absurd rfl h

theorem onCks_other {i : Instr} (h : i.port ≠ .cks) (p : Params) (c : Cks) : onCks p i c = c := by
  cases i <;> first | rfl | exact absurd rfl h

theorem onRsq_other {i : Instr} (h : i.port ≠ .rsq) (p : Params) (o : Bool) (r : Rsq) :
    onRsq p o i r = r := by
  cases i <;> first | rfl | exact absurd rfl h

end Sys2Proof.Machine
end

