-- ==== Sys2Proof/Laws/Flags.lean ====
section
/-! SUPPORT. The `PHASE` fields of the two status words that have one (spec/10_state.md R27, R32): the
field is the code of the phase. -/

namespace Sys2Proof.Machine

theorem decStatus_phase (d : Dec) : (decStatus d).extractLsb' 0 2 = decPhaseCode d.phase := by
  have low (a : Bool) (p : BitVec 2) : (BitVec.ofBool a ++ p).extractLsb' 0 2 = p := by
    revert a p; decide
  exact low _ _

theorem rsqStatus_phase (r : Rsq) : (rsqStatus r).extractLsb' 0 3 = rsqPhaseCode r.phase := by
  have low (hi : BitVec 5) (p : BitVec 3) : (hi ++ p).extractLsb' 0 3 = p := by
    revert hi p; decide
  exact low _ _

end Sys2Proof.Machine
end

