-- ==== Sys2Proof/Laws/Ops.lean ====
section
/-! SUPPORT. What each shared operation does, case by case. -/

namespace Sys2Proof.Machine

/-! ### Acceptance (R60, R84, R112, R150) -/

theorem encTake_free {f : Enc → Enc} {e : Enc} (h : e.buf = []) : encTake f e = f e := by
  simp [encTake, h]

theorem encTake_busy {f : Enc → Enc} {e : Enc} (h : e.buf ≠ []) : encTake f e = e := by
  simp [encTake, h]

theorem decTake_free {f : Dec → Dec} {d : Dec} (h : d.obuf = none) : decTake f d = f d := by
  simp [decTake, h]

theorem decTake_busy {f : Dec → Dec} {d : Dec} (h : d.obuf ≠ none) : decTake f d = d := by
  simp [decTake, h]

theorem rsqTake_idle {f : Rsq → Rsq} {r : Rsq} (h : r.phase = .idle) : rsqTake f r = f r := by
  simp [rsqTake, h]

theorem rsqTake_busy {f : Rsq → Rsq} {r : Rsq} (h : r.phase ≠ .idle) : rsqTake f r = r := by
  simp [rsqTake, h]

/-! ### The escape map (R68, R82) -/

/-- In a frame `ENC.BYTE b` loads the wire form of `b`. -/
theorem encByte_inFrame {b : Byte} {e : Enc} (h : e.inFrame = true) :
    encByte b e = encSend (escapeByte b) e := by
  unfold encByte escapeByte
  rw [if_pos h]
  split
  · rfl
  · split <;> rfl

/-! ### The timer (R6, R154) -/

theorem holdCycles_ge (p : Params) : 50 ≤ p.holdCycles := by
  unfold Params.holdCycles Params.holdMs Params.cyclesPerMs
  omega

theorem holdCycles_fits (p : Params) : p.holdCycles < 2 ^ p.timerWidth := Nat.lt_log2_self

theorem rsqTimerPred_pos {p : Params} {t : Nat} (h : t ≠ 0) : rsqTimerPred p t = t - 1 := by
  simp [rsqTimerPred, h]

/-- The timer stays in its register, wrapped or not. -/
theorem rsqTimerPred_fits {p : Params} {t : Nat} (h : t < 2 ^ p.timerWidth) :
    rsqTimerPred p t < 2 ^ p.timerWidth := by
  unfold rsqTimerPred
  split <;> omega

/-! ### RSQ's own step, by phase (R152 to R156) -/

theorem rsqEdge_idle {p : Params} {i : Inputs} {r : Rsq} (h : r.phase = .idle) :
    rsqEdge p i r = rsqClearDone r := by
  simp [rsqEdge, h]

theorem rsqEdge_openWait {p : Params} {i : Inputs} {r : Rsq} (h : r.phase = .openWait)
    (ha : i.tpOpenAck = false) : rsqEdge p i r = rsqClearDone r := by
  simp [rsqEdge, h, ha]

theorem rsqEdge_holdReset_count {p : Params} {i : Inputs} {r : Rsq} (h : r.phase = .holdReset)
    (ht : r.timer ≠ 1) : rsqEdge p i r = rsqCount p (rsqClearDone r) := by
  simp [rsqEdge, h, ht]

theorem rsqEdge_holdReset_end {p : Params} {i : Inputs} {r : Rsq} (h : r.phase = .holdReset)
    (ht : r.timer = 1) : rsqEdge p i r = rsqHoldTarget p (rsqClearDone r) := by
  simp [rsqEdge, h, ht]

theorem rsqEdge_holdTarget_count {p : Params} {i : Inputs} {r : Rsq} (h : r.phase = .holdTarget)
    (ht : r.timer ≠ 1) : rsqEdge p i r = rsqCount p (rsqClearDone r) := by
  simp [rsqEdge, h, ht]

theorem rsqEdge_holdTarget_end {p : Params} {i : Inputs} {r : Rsq} (h : r.phase = .holdTarget)
    (ht : r.timer = 1) : rsqEdge p i r = rsqRelease r := by
  simp [rsqEdge, h, ht]

end Sys2Proof.Machine
end

