-- ==== Sys2Proof/Laws/Step.lean ====
section
/-! SUPPORT. What a step does to every field: the one inversion of the clock edge that later proofs
cite. -/

namespace Sys2Proof.Machine

theorem decode_port (w : PortWord) : (decode w).port = w.port := by
  cases w with
  | enc w => simp only [decode, decodeEnc10]; (repeat' split) <;> rfl
  | dec w => simp only [decode, decodeDec9]; split <;> rfl
  | cks w => simp only [decode, decodeCks34]; (repeat' split) <;> rfl
  | rsq w => rfl

theorem acceptedEnc_port {s : State} {i : Instr} (h : i ∈ acceptedEnc s) : i.port = .enc := by
  unfold acceptedEnc at h; split at h
  · rw [List.mem_singleton.mp h, decode_port]; rfl
  · cases h

theorem acceptedDec_port {s : State} {i : Instr} (h : i ∈ acceptedDec s) : i.port = .dec := by
  unfold acceptedDec at h; split at h
  · rw [List.mem_singleton.mp h, decode_port]; rfl
  · cases h

theorem acceptedCks_port {s : State} {i : Instr} (h : i ∈ acceptedCks s) : i.port = .cks := by
  unfold acceptedCks at h; split at h
  · rw [List.mem_singleton.mp h, decode_port]; rfl
  · cases h

theorem acceptedRsq_port {s : State} {i : Instr} (h : i ∈ acceptedRsq s) : i.port = .rsq := by
  unfold acceptedRsq at h; split at h
  · rw [List.mem_singleton.mp h, decode_port]; rfl
  · cases h

/-- A fold that every element leaves alone. -/
theorem foldl_fixed {α β : Type} (f : β → α → β) (l : List α) (b : β)
    (h : ∀ a ∈ l, ∀ c, f c a = c) : l.foldl f b = b := by
  induction l generalizing b with
  | nil => rfl
  | cons a l ih =>
    rw [List.foldl_cons, h a (by simp), ih]
    exact fun a' ha' => h a' (by simp [ha'])

/-- A step outside reset: each unit's own commands act on what the edge leaves of that unit. -/
theorem step_running {s : State} (h : s.now.rst = false) :
    step s =
      .next { s with
        enc := (acceptedEnc s).foldl (fun e i => onEnc i e) (quietEdge s).enc
        dec := (acceptedDec s).foldl (fun d i => onDec i d) (quietEdge s).dec
        cks := (acceptedCks s).foldl (fun c i => onCks s.cfg i c) s.cks
        rsq := (acceptedRsq s).foldl (fun r i => onRsq s.cfg s.now.tpIsOpen i r)
                 (rsqEdge s.cfg s.now s.rsq)
        txOut := (quietEdge s).txOut
        doutOut := (quietEdge s).doutOut
        inputs := s.inputs.tail
        cycle := s.cycle + 1 } := by
  have he (e : Enc) : (accepted s).foldl (fun e i => onEnc i e) e =
      (acceptedEnc s).foldl (fun e i => onEnc i e) e := by
    simp only [accepted, List.foldl_append]
    rw [foldl_fixed _ (acceptedRsq s), foldl_fixed _ (acceptedCks s), foldl_fixed _ (acceptedDec s)]
    · exact fun i hi c => onEnc_other (by simp [acceptedDec_port hi]) c
    · exact fun i hi c => onEnc_other (by simp [acceptedCks_port hi]) c
    · exact fun i hi c => onEnc_other (by simp [acceptedRsq_port hi]) c
  have hd (d : Dec) : (accepted s).foldl (fun d i => onDec i d) d =
      (acceptedDec s).foldl (fun d i => onDec i d) d := by
    simp only [accepted, List.foldl_append]
    rw [foldl_fixed _ (acceptedRsq s), foldl_fixed _ (acceptedCks s), foldl_fixed _ (acceptedEnc s)]
    · exact fun i hi c => onDec_other (by simp [acceptedEnc_port hi]) c
    · exact fun i hi c => onDec_other (by simp [acceptedCks_port hi]) c
    · exact fun i hi c => onDec_other (by simp [acceptedRsq_port hi]) c
  have hc (c : Cks) : (accepted s).foldl (fun c i => onCks s.cfg i c) c =
      (acceptedCks s).foldl (fun c i => onCks s.cfg i c) c := by
    simp only [accepted, List.foldl_append]
    rw [foldl_fixed _ (acceptedRsq s), foldl_fixed _ (acceptedDec s), foldl_fixed _ (acceptedEnc s)]
    · exact fun i hi c => onCks_other (by simp [acceptedEnc_port hi]) _ c
    · exact fun i hi c => onCks_other (by simp [acceptedDec_port hi]) _ c
    · exact fun i hi c => onCks_other (by simp [acceptedRsq_port hi]) _ c
  have hr (r : Rsq) : (accepted s).foldl (fun r i => onRsq s.cfg s.now.tpIsOpen i r) r =
      (acceptedRsq s).foldl (fun r i => onRsq s.cfg s.now.tpIsOpen i r) r := by
    simp only [accepted, List.foldl_append]
    rw [foldl_fixed _ (acceptedEnc s), foldl_fixed _ (acceptedDec s), foldl_fixed _ (acceptedCks s)]
    · exact fun i hi c => onRsq_other (by simp [acceptedCks_port hi]) _ _ c
    · exact fun i hi c => onRsq_other (by simp [acceptedDec_port hi]) _ _ c
    · exact fun i hi c => onRsq_other (by simp [acceptedEnc_port hi]) _ _ c
  simp only [step, clockEdge, h, Bool.false_eq_true, if_false, execAll_eq, endCycle, State.advance,
    quietEdge_cfg, quietEdge_now, he, hd, hc, hr, quietEdge_cks, quietEdge_rsq, quietEdge_inputs,
    quietEdge_cycle]

/-- A step in reset (R200). -/
theorem step_reset {s : State} (h : s.now.rst = true) : step s = .next (resetEdge s).advance := by
  simp [step, clockEdge, h]

/-- The block never stops (R180). -/
theorem step_next (s : State) : ∃ t, step s = .next t := by
  cases h : s.now.rst
  · exact ⟨_, step_running h⟩
  · exact ⟨_, step_reset h⟩

theorem step_keeps_cfg {s t : State} (h : step s = .next t) : t.cfg = s.cfg := by
  cases hr : s.now.rst
  · rw [step_running hr] at h; cases h; rfl
  · rw [step_reset hr] at h; cases h; rfl

end Sys2Proof.Machine
end

