-- ==== Sys2Proof/Laws/Run.lean ====
section
/-! SUPPORT. Runs, one step at a time, and what a unit's accepted commands make of that unit and of its
output stream over a whole run. -/

namespace Sys2Proof.Machine

theorem reaches_zero {s t : State} : reaches 0 s t ↔ t = s := by
  constructor
  · intro h; cases h; rfl
  · rintro rfl; rfl

theorem reaches_succ {k : Nat} {s t : State} :
    reaches (k + 1) s t ↔ ∃ u, step s = .next u ∧ reaches k u t := by
  obtain ⟨u, hu⟩ := step_next s
  have hr : Host.Core.run core (k + 1) s = Host.Core.run core k u := by
    have hu' : core.step s = .next u := hu
    simp only [Host.Core.run, hu']
  unfold reaches
  rw [hr]
  constructor
  · exact fun h => ⟨u, hu, h⟩
  · rintro ⟨u', h, h'⟩
    rw [hu] at h; cases h; exact h'

theorem throughout_succ {p : State → Prop} {k : Nat} {s u : State} (h : step s = .next u) :
    throughout p (k + 1) s ↔ p s ∧ throughout p k u := by
  simp only [throughout, h]

theorem acceptedIn_succ {f : State → List Instr} {k : Nat} {s u : State} (h : step s = .next u) :
    acceptedIn f (k + 1) s = f s ++ acceptedIn f k u := by
  simp only [acceptedIn, h]

/-- What holds at the start and is kept by every step holds at the end of every run. -/
theorem reaches_induction {P : State → Prop} (keep : ∀ s t, P s → step s = .next t → P t)
    {k : Nat} {s t : State} (hs : P s) (h : reaches k s t) : P t := by
  induction k generalizing s with
  | zero => rw [reaches_zero] at h; exact h ▸ hs
  | succ k ih =>
    obtain ⟨u, hu, hk⟩ := reaches_succ.mp h
    exact ih (keep s u hs hu) hk

/-- Every run has an end: no step stops (R180). -/
theorem reaches_some (k : Nat) (s : State) : ∃ t, reaches k s t := by
  induction k generalizing s with
  | zero => exact ⟨s, reaches_zero.mpr rfl⟩
  | succ k ih =>
    obtain ⟨u, hu⟩ := step_next s
    obtain ⟨t, ht⟩ := ih u
    exact ⟨t, reaches_succ.mpr ⟨u, hu, ht⟩⟩

theorem step_inputs {s t : State} (h : step s = .next t) : t.inputs = s.inputs.tail := by
  cases hr : s.now.rst
  · rw [step_running hr] at h; cases h; rfl
  · rw [step_reset hr] at h; cases h; rfl

theorem State.now_cons {s : State} {i : Inputs} {l : List Inputs} (h : s.inputs = i :: l) :
    s.now = i := by
  simp only [State.now, h]

/-- What every listed input satisfies holds throughout the cycles they cover. -/
theorem throughout_of_inputs {p : Inputs → Prop} {k : Nat} {s : State}
    (hk : k ≤ s.inputs.length) (h : ∀ i ∈ s.inputs, p i) : throughout (fun u => p u.now) k s := by
  induction k generalizing s with
  | zero => trivial
  | succ k ih =>
    obtain ⟨u, hu⟩ := step_next s
    obtain ⟨i, l, hs⟩ : ∃ i l, s.inputs = i :: l := by
      cases hs : s.inputs with
      | nil => simp [hs] at hk
      | cons i l => exact ⟨i, l, rfl⟩
    have hu' : u.inputs = l := by rw [step_inputs hu, hs]; rfl
    rw [throughout_succ hu, State.now_cons hs]
    refine ⟨h i (by simp [hs]), ih (by simpa [hu', hs] using hk) fun j hj => h j ?_⟩
    rw [hu'] at hj
    simp [hs, hj]

/-- A unit that accepts nothing in any cycle accepts nothing in all. -/
theorem acceptedIn_nil {f : State → List Instr} {k : Nat} {s : State}
    (h : throughout (fun u => f u = []) k s) : acceptedIn f k s = [] := by
  induction k generalizing s with
  | zero => rfl
  | succ k ih =>
    obtain ⟨u, hu⟩ := step_next s
    rw [throughout_succ hu] at h
    rw [acceptedIn_succ hu, h.1, ih h.2]
    rfl

theorem throughout_mono {p q : State → Prop} (hpq : ∀ s, p s → q s) {k : Nat} {s : State}
    (h : throughout p k s) : throughout q k s := by
  induction k generalizing s with
  | zero => trivial
  | succ k ih =>
    obtain ⟨u, hu⟩ := step_next s
    rw [throughout_succ hu] at h ⊢
    exact ⟨hpq s h.1, ih h.2⟩

/-! ### ENC -/

/-- ENC's part of a step outside reset without a command: the wire grows by nothing (R91). -/
theorem step_enc_quiet {s t : State} (hr : s.now.rst = false) (h : step s = .next t)
    (ha : acceptedEnc s = []) :
    t.enc = { s.enc with buf := if s.now.txReady then s.enc.buf.tail else s.enc.buf } ∧
    t.wire = s.wire := by
  rw [step_running hr] at h; cases h
  simp only [ha, List.foldl_nil, quietEdge_enc, quietEdge_txOut, State.wire, true_and]
  cases s.now.txReady <;> cases s.enc.buf <;> simp

/-- A command that ENC accepts finds the buffer gone (R90, R91). -/
theorem acceptedEnc_ready {s : State} {i : Instr} (ha : acceptedEnc s = [i]) :
    encCmdReady s = true := by
  unfold acceptedEnc at ha; split at ha
  · rename_i h; exact (Bool.and_eq_true _ _ ▸ h).2
  · cases ha

theorem encReady_buf {s : State} (h : encCmdReady s = true) :
    (if s.now.txReady then s.enc.buf.tail else s.enc.buf) = [] := by
  unfold encCmdReady at h
  rcases hb : s.enc.buf with _ | ⟨b, _ | ⟨c, r⟩⟩ <;> simp_all

/-- ENC's part of a step outside reset with a command: the wire grows by the command's bytes
(R91). -/
theorem step_enc_command {s t : State} {i : Instr} (hr : s.now.rst = false)
    (h : step s = .next t) (ha : acceptedEnc s = [i]) :
    t.enc = onEnc i { s.enc with buf := [] } ∧ t.wire = s.wire ++ t.enc.buf := by
  have hb := encReady_buf (acceptedEnc_ready ha)
  rw [step_running hr] at h; cases h
  simp only [ha, List.foldl_cons, List.foldl_nil, quietEdge_enc, quietEdge_txOut, State.wire, hb,
    true_and]
  congr 1
  cases hx : s.now.txReady <;> rw [hx] at hb <;> rcases hc : s.enc.buf with _ | ⟨b, _ | ⟨c, r⟩⟩ <;>
    simp_all

theorem acceptedEnc_cases (s : State) : acceptedEnc s = [] ∨ ∃ i, acceptedEnc s = [i] := by
  unfold acceptedEnc; split
  · exact .inr ⟨_, rfl⟩
  · exact .inl rfl

/-- What a list of commands makes of ENC, each finding an empty buffer: the bytes sent, and ENC
without them. -/
def encFeed : List Instr → Enc → List Byte × Enc
  | [], e => ([], { e with buf := [] })
  | i :: is, e =>
    ((onEnc i { e with buf := [] }).buf ++ (encFeed is (onEnc i { e with buf := [] })).1,
     (encFeed is (onEnc i { e with buf := [] })).2)

theorem encFeed_buf (is : List Instr) (e : Enc) (b : List Byte) :
    encFeed is { e with buf := b } = encFeed is e := by
  cases is <;> rfl

/-- Over a run without reset, ENC's wire and state are what its accepted commands make of them. -/
theorem run_encFeed {k : Nat} {s t : State} (hn : throughout noReset k s) (h : reaches k s t) :
    t.wire = s.wire ++ (encFeed (acceptedIn acceptedEnc k s) s.enc).1 ∧
    { t.enc with buf := [] } = (encFeed (acceptedIn acceptedEnc k s) s.enc).2 := by
  induction k generalizing s with
  | zero => rw [reaches_zero] at h; subst h; simp [acceptedIn, encFeed]
  | succ k ih =>
    obtain ⟨u, hu, hk⟩ := reaches_succ.mp h
    rw [throughout_succ hu] at hn
    obtain ⟨hw, he⟩ := ih hn.2 hk
    rw [acceptedIn_succ hu]
    rcases acceptedEnc_cases s with ha | ⟨i, ha⟩
    · obtain ⟨hq, hqw⟩ := step_enc_quiet hn.1 hu ha
      rw [hqw, hq, encFeed_buf] at hw
      rw [hq, encFeed_buf] at he
      rw [ha]; exact ⟨hw, he⟩
    · obtain ⟨hq, hqw⟩ := step_enc_command hn.1 hu ha
      rw [ha, hw, he, hqw, hq]
      simp [encFeed]

theorem encFeed_append (is js : List Instr) (e : Enc) :
    encFeed (is ++ js) e =
      ((encFeed is e).1 ++ (encFeed js (encFeed is e).2).1, (encFeed js (encFeed is e).2).2) := by
  induction is generalizing e with
  | nil => simp [encFeed, encFeed_buf]
  | cons i is ih => simp [encFeed, ih]

/-! ### DEC -/

theorem acceptedDec_cases (s : State) : acceptedDec s = [] ∨ ∃ i, acceptedDec s = [i] := by
  unfold acceptedDec; split
  · exact .inr ⟨_, rfl⟩
  · exact .inl rfl

/-- DEC's part of a step outside reset without a word: no item is emitted or lost (R111). -/
theorem step_dec_quiet {s t : State} (hr : s.now.rst = false) (h : step s = .next t)
    (ha : acceptedDec s = []) :
    t.dec = { s.dec with obuf := if s.now.doutReady then none else s.dec.obuf } ∧
    t.items = s.items := by
  rw [step_running hr] at h; cases h
  simp only [ha, List.foldl_nil, quietEdge_dec, quietEdge_doutOut, State.items, true_and]
  cases s.now.doutReady <;> cases s.dec.obuf <;> simp

theorem acceptedDec_ready {s : State} {i : Instr} (ha : acceptedDec s = [i]) :
    rxReady s = true := by
  unfold acceptedDec at ha; split at ha
  · rename_i h; exact (Bool.and_eq_true _ _ ▸ h).2
  · cases ha

theorem rxReady_obuf {s : State} (h : rxReady s = true) :
    (if s.now.doutReady then none else s.dec.obuf) = none := by
  unfold rxReady at h
  cases hb : s.dec.obuf <;> simp_all

/-- DEC's part of a step outside reset with a word: its item, if any, is the next one (R111). -/
theorem step_dec_command {s t : State} {i : Instr} (hr : s.now.rst = false)
    (h : step s = .next t) (ha : acceptedDec s = [i]) :
    t.dec = onDec i { s.dec with obuf := none } ∧ t.items = s.items ++ t.dec.obuf.toList := by
  have hb := rxReady_obuf (acceptedDec_ready ha)
  rw [step_running hr] at h; cases h
  simp only [ha, List.foldl_cons, List.foldl_nil, quietEdge_dec, quietEdge_doutOut, State.items, hb,
    true_and]
  congr 1
  cases hx : s.now.doutReady <;> rw [hx] at hb <;> cases hc : s.dec.obuf <;> simp_all

/-- What a list of words makes of DEC, each finding an empty output register: the items emitted, and
DEC without them. -/
def decFeed : List Instr → Dec → List DoutItem × Dec
  | [], d => ([], { d with obuf := none })
  | i :: is, d =>
    ((onDec i { d with obuf := none }).obuf.toList ++
       (decFeed is (onDec i { d with obuf := none })).1,
     (decFeed is (onDec i { d with obuf := none })).2)

theorem decFeed_obuf (is : List Instr) (d : Dec) (o : Option DoutItem) :
    decFeed is { d with obuf := o } = decFeed is d := by
  cases is <;> rfl

/-- Over a run without reset, DEC's items and state are what its accepted words make of them. -/
theorem run_decFeed {k : Nat} {s t : State} (hn : throughout noReset k s) (h : reaches k s t) :
    t.items = s.items ++ (decFeed (acceptedIn acceptedDec k s) s.dec).1 ∧
    { t.dec with obuf := none } = (decFeed (acceptedIn acceptedDec k s) s.dec).2 := by
  induction k generalizing s with
  | zero => rw [reaches_zero] at h; subst h; simp [acceptedIn, decFeed]
  | succ k ih =>
    obtain ⟨u, hu, hk⟩ := reaches_succ.mp h
    rw [throughout_succ hu] at hn
    obtain ⟨hw, he⟩ := ih hn.2 hk
    rw [acceptedIn_succ hu]
    rcases acceptedDec_cases s with ha | ⟨i, ha⟩
    · obtain ⟨hq, hqw⟩ := step_dec_quiet hn.1 hu ha
      rw [hqw, hq, decFeed_obuf] at hw
      rw [hq, decFeed_obuf] at he
      rw [ha]; exact ⟨hw, he⟩
    · obtain ⟨hq, hqw⟩ := step_dec_command hn.1 hu ha
      rw [ha, hw, he, hqw, hq]
      simp [decFeed]

theorem decFeed_append (is js : List Instr) (d : Dec) :
    decFeed (is ++ js) d =
      ((decFeed is d).1 ++ (decFeed js (decFeed is d).2).1, (decFeed js (decFeed is d).2).2) := by
  induction is generalizing d with
  | nil => simp [decFeed, decFeed_obuf]
  | cons i is ih => simp [decFeed, ih]

/-! ### CKS -/

/-- CKS's part of a step outside reset (R138). -/
theorem step_cks {s t : State} (hr : s.now.rst = false) (h : step s = .next t) :
    t.cks = (acceptedCks s).foldl (fun c i => onCks s.cfg i c) s.cks := by
  rw [step_running hr] at h; cases h; rfl

/-- Over a run without reset, CKS is what its accepted commands make of it. -/
theorem run_cks {k : Nat} {s t : State} (hn : throughout noReset k s) (h : reaches k s t) :
    t.cks = (acceptedIn acceptedCks k s).foldl (fun c i => onCks s.cfg i c) s.cks := by
  induction k generalizing s with
  | zero => rw [reaches_zero] at h; subst h; rfl
  | succ k ih =>
    obtain ⟨u, hu, hk⟩ := reaches_succ.mp h
    rw [throughout_succ hu] at hn
    rw [acceptedIn_succ hu, List.foldl_append, ← step_cks hn.1 hu, ih hn.2 hk, step_keeps_cfg hu]

/-! ### RSQ -/

/-- RSQ's part of a step outside reset (R150 to R157). -/
theorem step_rsq {s t : State} (hr : s.now.rst = false) (h : step s = .next t) :
    t.rsq = (acceptedRsq s).foldl (fun r i => onRsq s.cfg s.now.tpIsOpen i r)
      (rsqEdge s.cfg s.now s.rsq) := by
  rw [step_running hr] at h; cases h; rfl

/-- RSQ accepts nothing, or one `RSQ.ENTER` in `IDLE` (R150). -/
theorem acceptedRsq_cases (s : State) :
    acceptedRsq s = [] ∨ (s.rsq.phase = .idle ∧ ∃ f, acceptedRsq s = [.rsqEnter f]) := by
  unfold acceptedRsq; split
  · rename_i h
    simp only [rsqCmdReady, Bool.and_eq_true, beq_iff_eq] at h
    exact .inr ⟨h.2.2, _, rfl⟩
  · exact .inl rfl

end Sys2Proof.Machine
end

