-- ==== Sys2Proof/Tests/Slice0.lean ====
section
/-! SUPPORT. Tests: words written out from the spec's encodings, the ill-formed lines an assembler
refuses, one step of each instruction on a small state, and a witness for the hypotheses of each
statement. Expected values come from spec/95_test_vectors.md or from the rules named. -/

namespace Sys2Proof.Tests

open Sys2Proof Sys2Proof.Machine

/-! ### Small states -/

/-- The reset state with `CYCLES_PER_MS = 1` and `CHECKSUM_MAGIC = 0xEF`, as in 95_test_vectors.md. -/
def base : State := State.resetFor ⟨0, 0xEF#32⟩

def withInputs (s : State) (is : List Inputs) : State := { s with inputs := is }

def encState (inFrame : Bool) (buf : List Byte) : State :=
  base.withEnc { Enc.reset with inFrame := inFrame, buf := buf }

def decState (phase : DecPhase) (obuf : Option DoutItem) : State := base.withDec ⟨phase, obuf⟩

def rsqState (phase : RsqPhase) (timer : Nat) (flash dtr rts openReq : Bool) : State :=
  base.withRsq
    { Rsq.reset with
      phase := phase, timer := timer, flash := flash, dtr := dtr, rts := rts, openReq := openReq }

def offerEnc (w : BitVec 10) : Inputs := offerIn quietInputs (.enc w)
def offerDec (w : BitVec 9) : Inputs := offerIn quietInputs (.dec w)
def offerCks (w : BitVec 34) : Inputs := offerIn quietInputs (.cks w)
def offerRsq (w : BitVec 1) (isOpen : Bool) : Inputs :=
  { offerIn quietInputs (.rsq w) with tpIsOpen := isOpen }
def resetInputs : Inputs := { quietInputs with rst := true, encCmdValid := true, encCmd := 0x100 }

/-- The state after one step; the step always answers one. -/
def afterStep (s : State) : State :=
  match step s with
  | .next t => t
  | .fault _ => s
  | .refused _ => s

/-! ### Well-formedness: each check refuses an ill-formed line (R70) -/

theorem test_wf_encByte : (AsmLine.encByte 256).wellFormed = false := by decide
theorem test_wf_decByte : (AsmLine.decByte 256).wellFormed = false := by decide
theorem test_wf_cksWord : (AsmLine.cksWord 0x100000000).wellFormed = false := by decide
theorem test_wf_cksInit : (AsmLine.cksInit 0x100000000).wellFormed = false := by decide
theorem test_wf_rsqEnter : (AsmLine.rsqEnter 2).wellFormed = false := by decide
theorem test_wf_encFrame : (AsmLine.encFrame [0x41, 256]).wellFormed = false := by decide
theorem test_wf_decDelivery : (AsmLine.decDelivery [0xC0, 256]).wellFormed = false := by decide
theorem test_wf_cksSum_seed : (AsmLine.cksSum 0x100000000 []).wellFormed = false := by decide
theorem test_wf_cksSum_word : (AsmLine.cksSum 0 [0x100000000]).wellFormed = false := by decide
theorem test_wf_cksSumm : (AsmLine.cksSumm [0x100000000]).wellFormed = false := by decide
theorem test_canonical_reserved : (Instr.encReserved 0#8).canonical = false := by decide
theorem test_canonical_data : (Instr.encBegin 1#8).canonical = false := by decide
theorem test_assemble_refuses : assemble (.encByte 256) = .error .operandOutOfRange := by decide

/-! ### Assembler text (R70, R71) -/

theorem test_text_byte : assembleText "ENC.BYTE 0xC0" = .ok [.encByte 0xC0#8] := by decide
theorem test_text_frame :
    assembleText "ENC.FRAME 0x01, 192" =
      .ok [.encBegin 0, .encByte 0x01#8, .encByte 0xC0#8, .encEnd 0] := by decide
theorem test_text_empty_delivery : assembleText "DEC.DELIVERY" = .ok [.decEnd 0] := by decide
theorem test_text_sum :
    assembleText "CKS.SUM 0xDEADBEEF, 1" = .ok [.cksInit 0xDEADBEEF#32, .cksWord 1#32] := by decide
theorem test_text_no_reserved : assembleText "ENC.RESERVED" = .error .notALine := by decide

/-! ### Decoding: words written out from R62, R64, R66, R67 -/

theorem test_decode_encByte : decode (.enc 0b0001000001#10) = .encByte 0x41#8 := by decide
theorem test_decode_encBegin : decode (.enc 0b0110101011#10) = .encBegin 0xAB#8 := by decide
theorem test_decode_encEnd : decode (.enc 0b1011001101#10) = .encEnd 0xCD#8 := by decide
theorem test_decode_encReserved : decode (.enc 0b1111000000#10) = .encReserved 0xC0#8 := by decide
theorem test_decode_decByte : decode (.dec 0b011011100#9) = .decByte 0xDC#8 := by decide
theorem test_decode_decEnd : decode (.dec 0b100000000#9) = .decEnd 0x00#8 := by decide
theorem test_decode_cksWord : decode (.cks 0x012345678#34) = .cksWord 0x12345678#32 := by decide
theorem test_decode_cksInit : decode (.cks 0x1DEADBEEF#34) = .cksInit 0xDEADBEEF#32 := by decide
theorem test_decode_cksInitm : decode (.cks 0x2DEADBEEF#34) = .cksInitm 0xDEADBEEF#32 := by decide
theorem test_decode_cksReserved :
    decode (.cks 0x3FFFFFFFF#34) = .cksReserved 0xFFFFFFFF#32 := by decide
theorem test_decode_rsqEnter_flash : decode (.rsq 1#1) = .rsqEnter true := by decide
theorem test_decode_rsqEnter_run : decode (.rsq 0#1) = .rsqEnter false := by decide
theorem test_decode_too_wide : decodeNat .dec 0x200 = .error (.wordTooWide .dec) := by decide
theorem test_tableWord_enc : decodeTableWord 16 0x3C0 = some (.encReserved 0xC0#8) := by decide
theorem test_tableWord_dec : decodeTableWord 9 0x100 = some (.decEnd 0#8) := by decide
theorem test_tableWord_cks : decodeTableWord 40 0x200000000 = some (.cksInitm 0#32) := by decide
theorem test_tableWord_rsq : decodeTableWord 8 1 = some (.rsqEnter true) := by decide

/-! ### One step of each instruction -/

/-- R81's example: from reset `0x100` sends `C0` and opens the frame. -/
theorem test_step_encBegin :
    (afterStep (withInputs base [offerEnc 0x100])).enc = ⟨true, [0xC0#8], false, false⟩ := by decide
/-- 95_test_vectors.md 2.2: BEGIN inside a frame. -/
theorem test_step_encBegin_twice :
    (afterStep (withInputs (encState true [0xC0#8]) [offerEnc 0x100])).enc =
      ⟨true, [], true, false⟩ := by decide
/-- R82's example, with the earlier byte leaving at the same edge. -/
theorem test_step_encByte :
    (afterStep (withInputs (encState true [0xC0#8]) [offerEnc 0x0C0])).enc =
      ⟨true, [0xDB#8, 0xDC#8], false, false⟩ := by decide
/-- 95_test_vectors.md 2.3, cycle 3: two bytes are buffered, so the word waits. -/
theorem test_step_encByte_waits :
    (afterStep (withInputs (encState true [0xDB#8, 0xDC#8]) [offerEnc 0x0DB])).enc =
      ⟨true, [0xDC#8], false, false⟩ := by decide
/-- R83's example: the closing delimiter. -/
theorem test_step_encEnd :
    (afterStep (withInputs (encState true [0x41#8]) [offerEnc 0x200])).enc =
      ⟨false, [0xC0#8], false, false⟩ := by decide
/-- 95_test_vectors.md 2.2: END outside a frame. -/
theorem test_step_encEnd_fault :
    encStatus (afterStep (withInputs base [offerEnc 0x200])).enc = 0x4#4 := by decide
/-- R85's example. -/
theorem test_step_encReserved :
    encStatus (afterStep (withInputs base [offerEnc 0x3C0])).enc = 0x8#4 := by decide
/-- R102's example: in `ESCAPE`, `0DC` emits `0C0`. -/
theorem test_step_decByte_escape :
    (afterStep (withInputs (decState .escape none) [offerDec 0x0DC])).dec =
      ⟨.body, some 0x0C0#9⟩ := by decide
/-- 95_test_vectors.md 3.1: a delimiter in escape mode is no terminator. -/
theorem test_step_decByte_bad_escape :
    (afterStep (withInputs (decState .escape none) [offerDec 0x0C0])).dec =
      ⟨.skip, some 0x102#9⟩ := by decide
/-- R103's example: an unterminated frame, the earlier item leaving at the same edge. -/
theorem test_step_decEnd :
    (afterStep (withInputs (decState .body (some 0x001#9)) [offerDec 0x100])).dec =
      ⟨.header, some 0x103#9⟩ := by decide
/-- 95_test_vectors.md 3.4: the item that leaves is in the output sequence. -/
theorem test_step_decEnd_output :
    (afterStep (withInputs (decState .skip (some 0x100#9)) [offerDec 0x100])).doutOut =
      [0x100#9] := by decide
/-- R131's example. -/
theorem test_step_cksWord :
    (afterStep (withInputs base [offerCks 0x012345678])).cks.acc = 0x12345697#32 := by decide
/-- R132's example. -/
theorem test_step_cksInit :
    (afterStep (withInputs base [offerCks 0x100000000])).cks.acc = 0#32 := by decide
/-- 95_test_vectors.md 4: `2DEADBEEF` loads the magic seed. -/
theorem test_step_cksInitm :
    (afterStep (withInputs (base.withCks ⟨0x12345678#32, false⟩) [offerCks 0x2DEADBEEF])).cks =
      ⟨0xEF#32, false⟩ := by decide
/-- 95_test_vectors.md 4: the reserved word leaves the accumulator. -/
theorem test_step_cksReserved :
    (afterStep (withInputs (base.withCks ⟨0x12345678#32, false⟩) [offerCks 0x3FFFFFFFF])).cks =
      ⟨0x12345678#32, true⟩ := by decide
/-- 95_test_vectors.md 5.1, cycle 1. -/
theorem test_step_rsqEnter_open :
    rsqStatus (afterStep (withInputs base [offerRsq 1 true])).rsq = 0x2A#8 := by decide
/-- 95_test_vectors.md 5.3, cycle 1. -/
theorem test_step_rsqEnter_closed :
    rsqStatus (afterStep (withInputs base [offerRsq 1 false])).rsq = 0x09#8 := by decide
/-- 95_test_vectors.md 5.1, from cycle 50 to cycle 51. -/
theorem test_step_rsq_target :
    rsqStatus
      (afterStep (withInputs (rsqState .holdReset 1 true false true false) [quietInputs])).rsq =
      0x1B#8 := by decide
/-- 95_test_vectors.md 5.1, from cycle 100 to cycle 101. -/
theorem test_step_rsq_release :
    rsqStatus
      (afterStep (withInputs (rsqState .holdTarget 1 true true false false) [quietInputs])).rsq =
      0x88#8 := by decide
/-- 95_test_vectors.md 5.4, from cycle 2 to cycle 3. -/
theorem test_step_rsq_transportError :
    rsqStatus
      (afterStep (withInputs (rsqState .openWait 0 true false false true)
        [{ quietInputs with tpOpenAck := true }])).rsq = 0xC8#8 := by decide
/-- R200, R201: a reset edge with a command offered accepts nothing and empties the buffer. -/
theorem test_step_reset :
    (afterStep (withInputs (encState true [0xDB#8, 0xDC#8]) [resetInputs])).wire = [] := by decide
/-- The reset state's environment is free, and a word placed runs at the next step. -/
theorem test_step_placed_word :
    ∃ t, step (State.reset.withFetchWord 16 0x100) = .next t ∧ t.enc.buf = [0xC0#8] :=
  ⟨_, rfl, by decide⟩

/-! ### Witnesses: the hypotheses of each statement are met together -/

theorem witness_DecodeAndEncodeAgree :
    (Instr.encByte 0xC0#8).wellFormed = true ∧ 2 ^ Port.rsq.width ≤ 2 ∧ 1 < 2 ^ Port.rsq.width ∧
    2 ^ Port.cks.width ≤ 2 ^ 34 ∧ 2 ^ 34 - 1 < 2 ^ Port.cks.width := by decide

theorem witness_AssemblerWritesTableWords :
    255 < 2 ^ 8 ∧ 2 ^ 8 ≤ 256 ∧ 4294967295 < 2 ^ 32 ∧ 2 ^ 32 ≤ 4294967296 ∧ 1 < 2 ∧ 2 ≤ 2 := by
  decide

/-- One cycle in which every port's word is accepted, and one in which one word is. -/
theorem witness_StepRunsDecodedInstruction :
    (∃ s : State, s.now.rst = false ∧ s.now.encCmdValid = true ∧ encCmdReady s = true ∧
      s.now.rxValid = true ∧ rxReady s = true ∧ s.now.cksCmdValid = true ∧
      s.now.rsqCmdValid = true ∧ rsqCmdReady s = true ∧ (accepted s).length = 4) ∧
    (∃ s : State, s.now.rst = false ∧ s.now.encCmdValid = true ∧ encCmdReady s = false ∧
      accepted s = []) ∧
    (∃ s : State, s.now.rst = false ∧ accepted s = [.encEnd 0xCD#8]) :=
  ⟨⟨withInputs base
      [offerIn (offerIn (offerIn (offerRsq 1 true) (.cks 0)) (.dec 0x0C0)) (.enc 0x100)],
      by decide⟩,
   ⟨withInputs (encState true [0xDB#8, 0xDC#8]) [offerEnc 0x041], by decide⟩,
   ⟨withInputs (encState true [0x41#8]) [offerEnc 0x2CD], by decide⟩⟩

theorem witness_PlacedWordRunsNext :
    decodeTableWord 40 0x3FFFFFFFF = some (.cksReserved 0xFFFFFFFF#32) := by decide

theorem witness_WordWaitsUntilUnitIsFree :
    ((Instr.encEnd 0).port = .enc ∧ (encState true [0x41#8]).enc.buf ≠ []) ∧
    ((Instr.decEnd 0).port = .dec ∧ (decState .body (some 0x041#9)).dec.obuf ≠ none) ∧
    ((Instr.rsqEnter true).port = .rsq ∧
      (rsqState .openWait 0 true false false true).rsq.phase ≠ .idle) := by decide

theorem witness_OtherUnitsUnchanged :
    ∃ t, exec (.cksWord 1) base = .next t ∧ (Instr.cksWord 1).port ≠ .enc ∧
      (Instr.cksWord 1).port ≠ .dec ∧ (Instr.cksWord 1).port ≠ .rsq ∧
      (Instr.encByte 1).port ≠ .cks :=
  ⟨_, rfl, by decide⟩

theorem witness_CommandsOfDifferentUnitsCommute :
    (Instr.encBegin 0).port ≠ (Instr.decByte 0xC0).port := by decide

/-- Two states that agree about ENC and DEC and differ elsewhere, and two that agree about CKS and
RSQ and differ elsewhere. -/
theorem witness_UnitsShareNoState :
    (∃ s s' t t' : State, step s = .next t ∧ step s' = .next t' ∧ s.now.rst = s'.now.rst ∧
      s.cfg = s'.cfg ∧ s.enc = s'.enc ∧ s.txOut = s'.txOut ∧
      s.now.encCmdValid = s'.now.encCmdValid ∧ s.now.encCmd = s'.now.encCmd ∧
      s.now.txReady = s'.now.txReady ∧ s.dec = s'.dec ∧ s.doutOut = s'.doutOut ∧
      s.now.rxValid = s'.now.rxValid ∧ s.now.rxWord = s'.now.rxWord ∧
      s.now.doutReady = s'.now.doutReady ∧ s.cks ≠ s'.cks ∧ s.rsq ≠ s'.rsq) ∧
    (∃ s s' t t' : State, step s = .next t ∧ step s' = .next t' ∧ s.now.rst = s'.now.rst ∧
      s.cfg = s'.cfg ∧ s.cks = s'.cks ∧ s.now.cksCmdValid = s'.now.cksCmdValid ∧
      s.now.cksCmd = s'.now.cksCmd ∧ s.rsq = s'.rsq ∧
      s.now.rsqCmdValid = s'.now.rsqCmdValid ∧ s.now.rsqCmd = s'.now.rsqCmd ∧
      s.now.tpIsOpen = s'.now.tpIsOpen ∧ s.now.tpOpenAck = s'.now.tpOpenAck ∧
      s.now.tpOpenOk = s'.now.tpOpenOk ∧ s.enc ≠ s'.enc) :=
  ⟨⟨withInputs base [offerEnc 0x100],
    withInputs ((base.withCks ⟨1, false⟩).withRsq
      (rsqState .openWait 0 true false false true).rsq) [offerEnc 0x100],
    _, _, rfl, rfl, by decide⟩,
   ⟨withInputs base [offerCks 0x000000001], withInputs (encState true []) [offerCks 0x000000001],
    _, _, rfl, rfl, by decide⟩⟩

theorem witness_ParametersNeverChange : ∃ t, reaches 1 (withInputs base [resetInputs]) t :=
  ⟨_, rfl⟩

theorem witness_ResetGivesEveryElementItsValue :
    ∃ t, (withInputs (encState true [0xC0#8]) [resetInputs]).now.rst = true ∧
      step (withInputs (encState true [0xC0#8]) [resetInputs]) = .next t := ⟨_, rfl, rfl⟩

theorem witness_ResetCycleAcceptsNothing :
    (withInputs (encState true [0xC0#8]) [resetInputs]).now.rst = true := by decide

/-- Both ways into the hypothesis: one reset edge from the middle of a frame, and the reset state. -/
theorem witness_IdleAndReadyAfterReset :
    (∃ s t : State, s.now.rst = true ∧ step s = .next t ∧ t.now.rst = false ∧
      s.enc.inFrame = true) ∧
    (∃ (t : State) (p : Params) (is : List Inputs),
      t = { State.resetFor p with inputs := is } ∧ t.now.rst = false) :=
  ⟨⟨withInputs (encState true [0xC0#8]) [resetInputs, quietInputs], _, rfl, rfl, rfl, rfl⟩,
   ⟨_, ⟨0, 0⟩, [quietInputs], rfl, rfl⟩⟩

theorem witness_StickyBitsClearedOnlyByReset :
    (∃ s t : State, throughout noReset 1 s ∧ reaches 1 s t ∧ s.enc.seqerr = true ∧
      s.enc.illop = true ∧ s.cks.illop = true ∧ s.faulted = true) ∧
    (∃ s t : State, s.now.rst = true ∧ step s = .next t) :=
  ⟨⟨withInputs ((base.withEnc ⟨true, [], true, true⟩).withCks ⟨0, true⟩) [offerEnc 0x200], _,
    throughout_of_inputs (p := fun i => i.rst = false) (by decide) (by decide), rfl,
    by decide⟩,
   ⟨withInputs base [resetInputs], _, rfl, rfl⟩⟩

/-- The states met by ENC's statements: an empty buffer, in a frame and out of one. -/
theorem witness_EncCommands :
    (encState false []).enc.buf = [] ∧ (encState false []).enc.inFrame = false ∧
    (encState true []).enc.buf = [] ∧ (encState true []).enc.inFrame = true := by decide

/-- The bytes that decide `ENC.BYTE` and their neighbours. -/
theorem witness_EncByteEscapes :
    (0xC0#8 : Byte) ≠ 0xDB#8 ∧ (0xBF#8 : Byte) ≠ 0xC0#8 ∧ (0xBF#8 : Byte) ≠ 0xDB#8 ∧
    (0xDC#8 : Byte) ≠ 0xC0#8 ∧ (0xDC#8 : Byte) ≠ 0xDB#8 := by decide

theorem witness_SequenceErrorDiscardsCommand :
    (Instr.encBegin 0 = .encBegin 0 ∧ (encState true []).enc.inFrame = true) ∧
    ((Instr.encByte 1 = .encByte 1 ∨ Instr.encByte 1 = .encEnd 1) ∧
      (encState false []).enc.inFrame = false) := by decide

theorem witness_EncPortEdge :
    (∃ s : State, s.now.rst = false ∧ s.enc.buf = [0xDB#8, 0xDC#8] ∧ acceptedEnc s = []) ∧
    (∃ s : State, s.now.rst = false ∧ s.enc.buf = [0x41#8] ∧ acceptedEnc s = [.encEnd 0]) ∧
    (∃ s : State, s.now.rst = false ∧ s.enc.buf = [] ∧ acceptedEnc s = [.encBegin 0]) :=
  ⟨⟨withInputs (encState true [0xDB#8, 0xDC#8]) [offerEnc 0x041], by decide⟩,
   ⟨withInputs (encState true [0x41#8]) [offerEnc 0x200], by decide⟩,
   ⟨withInputs base [offerEnc 0x100], by decide⟩⟩

theorem witness_OfferedOutputIsHeld :
    ∃ s t : State, s.now.rst = false ∧ step s = .next t ∧ txValid s = true ∧
      s.now.txReady = false ∧ doutValid s = true ∧ s.now.doutReady = false :=
  ⟨withInputs ((encState true [0x41#8]).withDec ⟨.body, some 0x041#9⟩)
    [{ quietInputs with txReady := false, doutReady := false }], _, rfl, rfl, by decide⟩

/-- A run in which ENC accepts one whole frame, the empty one. -/
theorem witness_FramesSendTheirEncoding :
    ∃ s t : State, s.enc.inFrame = false ∧ throughout noReset 3 s ∧ reaches 3 s t ∧
      acceptedIn acceptedEnc 3 s = [[]].flatMap frameCommands ∧ t.enc.buf = [] :=
  ⟨withInputs base [offerEnc 0x100, offerEnc 0x200, quietInputs], _, rfl,
    throughout_of_inputs (p := fun i => i.rst = false) (by decide) (by decide), rfl,
    by decide, by decide⟩

theorem base_inv : base.Inv := by
  refine ⟨⟨trivial, rfl⟩, ⟨?_, fun _ => trivial⟩, ⟨rfl, rfl, rfl, rfl⟩⟩
  intro x hx
  cases hx

theorem witness_NotBusyMeansFramesSent :
    base.Inv ∧ (outputs base).encStatus.getLsbD 0 = false ∧
      (outputs base).encStatus.getLsbD 1 = false :=
  ⟨base_inv, by decide, by decide⟩

/-- A state of the invariant with two bytes to send: `C0` has left, `DB DC` waits. -/
def busyState : State := (encState true [0xDB#8, 0xDC#8]).withTxOut [0xC0#8]

theorem busyState_inv (is : List Inputs) : (withInputs busyState is).Inv := by
  refine ⟨⟨⟨rfl, .inl rfl⟩, rfl⟩, ⟨?_, fun _ => trivial⟩, ⟨rfl, rfl, rfl, rfl⟩⟩
  intro x hx
  cases hx

theorem witness_EncAcceptsWithinTwoCycles :
    ∃ s t : State, s.Inv ∧ step s = .next t ∧ noReset s ∧ noReset t ∧ holdsWords s t ∧
      s.now.encCmdValid = true ∧ s.now.txReady = true ∧ t.now.txReady = true ∧
      acceptedEnc s = [] :=
  ⟨withInputs busyState [offerEnc 0x200, offerEnc 0x200], _, busyState_inv _,
    rfl, rfl, rfl, by unfold holdsWords; decide, by decide⟩

theorem witness_UntakenOutputSticks :
    ∃ s t : State, throughout noReset 1 s ∧ reaches 1 s t ∧ s.enc.buf ≠ [] ∧
      throughout (fun u => u.now.txReady = false) 1 s ∧ s.dec.obuf ≠ none ∧
      throughout (fun u => u.now.doutReady = false) 1 s :=
  ⟨withInputs ((encState true [0x41#8]).withDec ⟨.body, some 0x041#9⟩)
    [{ offerEnc 0x042 with txReady := false, doutReady := false }], _,
    throughout_of_inputs (p := fun i => i.rst = false) (by decide) (by decide), rfl, by decide,
    throughout_of_inputs (p := fun i => i.txReady = false) (by decide) (by decide), by decide,
    throughout_of_inputs (p := fun i => i.doutReady = false) (by decide) (by decide)⟩

/-- Each phase with an empty output register. -/
theorem witness_DecWords :
    (decState .header none).dec = ⟨.header, none⟩ ∧ (decState .body none).dec = ⟨.body, none⟩ ∧
    (decState .escape none).dec = ⟨.escape, none⟩ ∧ (decState .skip none).dec = ⟨.skip, none⟩ ∧
    (0xDC#8 : Byte) ≠ 0xDD#8 ∧ (0xDB#8 : Byte) ≠ 0xDC#8 ∧ (0xDB#8 : Byte) ≠ 0xDD#8 := by decide

theorem witness_DecPortEdge :
    (∃ s : State, s.now.rst = false ∧ acceptedDec s = [.decByte 0x42#8] ∧
      s.dec.obuf = some 0x041#9) ∧
    (∃ s : State, s.now.rst = false ∧ s.now.rxValid = true ∧ acceptedDec s = []) :=
  ⟨⟨withInputs (decState .body (some 0x041#9)) [offerDec 0x042], by decide⟩,
   ⟨withInputs (decState .body (some 0x041#9)) [{ offerDec 0x042 with doutReady := false }],
    by decide⟩⟩

/-- A run in which DEC accepts two whole deliveries: an empty one, and `C0`. -/
theorem witness_DeliveriesProduceTheirItems :
    ∃ s t : State, s.dec.phase = .header ∧ throughout noReset 4 s ∧ reaches 4 s t ∧
      acceptedIn acceptedDec 4 s = [[], [0xC0#8]].flatMap deliveryCommands ∧ t.dec.obuf = none :=
  ⟨withInputs base [offerDec 0x100, offerDec 0x0C0, offerDec 0x100, quietInputs], _, rfl,
    throughout_of_inputs (p := fun i => i.rst = false) (by decide) (by decide), rfl,
    by decide, by decide⟩

theorem witness_DeliveriesProduceTheirItems_results :
    slipDecode [0xC0#8, 0x01#8, 0xC0#8] = .ok [0x01#8] ∧
    slipDecode [] = .error .frameMissingHeader ∧
    slipDecode [0xC0#8, 0xDB#8] = .error .unterminatedFrame ∧
    slipDecode [0xC0#8, 0xDB#8, 0xDB#8] = .error .invalidEscapeSequence := ⟨rfl, rfl, rfl, rfl⟩

theorem witness_OneResultItemAndLast :
    (slipDecodeTrace [0xC0#8, 0xC0#8]).2 = .ok ∧
    (slipDecodeTrace [0xC0#8, 0xDB#8, 0xC0#8]).2 = .invalidEscapeSequence ∧
    (slipDecodeTrace [0x41#8]).2 = .frameMissingHeader := by decide

theorem witness_PayloadSurvivesTheLink :
    (∃ s t : State, s.enc.inFrame = false ∧ throughout noReset 2 s ∧ reaches 2 s t ∧
      acceptedIn acceptedEnc 2 s = frameCommands [] ∧ t.wire = s.wire ++ [0xC0#8, 0xC0#8]) ∧
    (∃ s t : State, s.dec.phase = .header ∧ throughout noReset 3 s ∧ reaches 3 s t ∧
      acceptedIn acceptedDec 3 s = deliveryCommands [0xC0#8, 0xC0#8]) :=
  ⟨⟨withInputs base [offerEnc 0x100, offerEnc 0x200], _, rfl,
    throughout_of_inputs (p := fun i => i.rst = false) (by decide) (by decide), rfl,
    by decide, by decide⟩,
   ⟨withInputs base [offerDec 0x0C0, offerDec 0x0C0, offerDec 0x100], _, rfl,
    throughout_of_inputs (p := fun i => i.rst = false) (by decide) (by decide), rfl, by decide⟩⟩

theorem witness_CksPortEdge :
    (withInputs base [offerCks 0x012345678]).now.rst = false ∧
    (withInputs base [offerCks 0x012345678]).now.cksCmdValid = true ∧
    (withInputs base [quietInputs]).now.cksCmdValid = false := by decide

theorem witness_SumLeavesChecksum :
    (∃ s t : State, throughout noReset 2 s ∧ reaches 2 s t ∧
      acceptedIn acceptedCks 2 s = sumCommands 0xDEADBEEF#32 [1#32]) ∧
    (∃ s t : State, throughout noReset 2 s ∧ reaches 2 s t ∧
      acceptedIn acceptedCks 2 s = summCommands [1#32]) :=
  ⟨⟨withInputs base [offerCks 0x1DEADBEEF, offerCks 0x000000001], _,
    throughout_of_inputs (p := fun i => i.rst = false) (by decide) (by decide), rfl, by decide⟩,
   ⟨withInputs base [offerCks 0x200000000, offerCks 0x000000001], _,
    throughout_of_inputs (p := fun i => i.rst = false) (by decide) (by decide), rfl, by decide⟩⟩

theorem witness_ChecksumLaws :
    List.Perm [1#32, 2#32] [2#32, 1#32] ∧ (2#32).getLsbD 0 = (4#32).getLsbD 0 ∧
    [1#32].map (fun x => x.getLsbD 0) = [3#32].map (fun x => x.getLsbD 0) := by decide

theorem witness_RsqEnterStartsSequence :
    (withInputs base [offerRsq 1 true]).rsq.phase = .idle ∧
    (withInputs base [offerRsq 1 true]).now.tpIsOpen = true ∧
    (withInputs base [offerRsq 1 false]).now.tpIsOpen = false := by decide

theorem witness_RsqReadyOnlyWhenIdle :
    (withInputs (rsqState .holdReset 50 true false true false) [offerRsq 0 true]).rsq.phase ≠ .idle ∧
    (withInputs (rsqState .holdReset 50 true false true false) [offerRsq 0 true]).now.rst = false := by
  decide

/-- `OPEN_WAIT` with each answer of the transport. -/
def openWaiting (ack ok : Bool) : State :=
  withInputs (rsqState .openWait 0 true false false true)
    [{ quietInputs with tpOpenAck := ack, tpOpenOk := ok }]

theorem witness_RsqIdleAndOpenWait :
    ((withInputs base [quietInputs]).now.rst = false ∧
      acceptedRsq (withInputs base [quietInputs]) = [] ∧
      (withInputs base [quietInputs]).rsq.phase = .idle) ∧
    ((openWaiting false false).now.rst = false ∧ acceptedRsq (openWaiting false false) = [] ∧
      (openWaiting false false).now.tpOpenAck = false) ∧
    ((openWaiting true true).now.rst = false ∧ acceptedRsq (openWaiting true true) = [] ∧
      (openWaiting true true).now.tpOpenAck = true ∧ (openWaiting true true).now.tpOpenOk = true) ∧
    ((openWaiting true false).now.rst = false ∧ acceptedRsq (openWaiting true false) = [] ∧
      (openWaiting true false).rsq.phase = .openWait ∧
      (openWaiting true false).now.tpOpenOk = false) := by decide

/-- A hold phase at a given count. -/
def holding (phase : RsqPhase) (timer : Nat) : State :=
  withInputs (rsqState phase timer true false (phase == .holdReset) false) [quietInputs]

theorem witness_RsqHoldPhases :
    ((holding .holdReset 50).now.rst = false ∧ 1 ≤ (holding .holdReset 50).rsq.timer ∧
      (holding .holdReset 50).rsq.timer ≤ (holding .holdReset 50).cfg.holdCycles ∧
      (holding .holdReset 50).rsq.timer ≠ 1) ∧
    (1 ≤ (holding .holdTarget 2).rsq.timer ∧ (holding .holdTarget 2).rsq.timer ≠ 1) ∧
    ((holding .holdReset 1).rsq.phase = .holdReset ∧ (holding .holdReset 1).rsq.timer = 1) ∧
    ((holding .holdTarget 1).rsq.phase = .holdTarget ∧ (holding .holdTarget 1).rsq.timer = 1) := by
  decide

theorem witness_DoneIsPulseAtCompletion :
    (∃ t, (openWaiting true false).now.rst = false ∧ step (openWaiting true false) = .next t ∧
      t.rsq.done = true) ∧
    (∃ t, (holding .holdTarget 1).now.rst = false ∧ step (holding .holdTarget 1) = .next t ∧
      t.rsq.done = true) ∧
    (∃ t, (holding .holdTarget 2).now.rst = false ∧ step (holding .holdTarget 2) = .next t ∧
      t.rsq.done = false) :=
  ⟨⟨_, rfl, rfl, by decide⟩, ⟨_, rfl, rfl, by decide⟩, ⟨_, rfl, rfl, by decide⟩⟩

/-- The same sequencer under different transport inputs, in each phase. -/
theorem witness_RsqSamplesOnlyWhereStated :
    ∀ ph : RsqPhase, ∃ s s' t t' : State, s.rsq.phase = ph ∧ s.rsq = s'.rsq ∧ s.cfg = s'.cfg ∧
      s.now.rst = false ∧ s'.now.rst = false ∧ step s = .next t ∧ step s' = .next t' ∧
      acceptedRsq s = [] ∧ acceptedRsq s' = [] ∧ s.now.tpOpenAck = s'.now.tpOpenAck ∧
      s.now.tpOpenAck = false ∧ s.now.tpOpenOk ≠ s'.now.tpOpenOk ∧
      s.now.tpIsOpen ≠ s'.now.tpIsOpen := by
  intro ph
  obtain ⟨t, ht⟩ := step_next (holding ph 2)
  obtain ⟨t', ht'⟩ := step_next
    (withInputs (holding ph 2) [{ quietInputs with tpOpenOk := true, tpIsOpen := true }])
  refine ⟨holding ph 2,
    withInputs (holding ph 2) [{ quietInputs with tpOpenOk := true, tpIsOpen := true }],
    t, t', rfl, rfl, rfl, rfl, rfl, ht, ht', ?_⟩
  cases ph <;> decide

theorem witness_OpenWaitNeverTimesOut :
    ∃ s t : State, s.rsq.phase = .openWait ∧ s.rsq.openReq = true ∧ s.rsq.done = false ∧
      throughout noReset 100 s ∧ throughout (fun u => u.now.tpOpenAck = false) 100 s ∧
      reaches 100 s t := by
  obtain ⟨t, ht⟩ := reaches_some 100
    (withInputs (rsqState .openWait 0 true false false true) (List.replicate 100 quietInputs))
  refine ⟨_, t, rfl, rfl, rfl, ?_, ?_, ht⟩
  · refine throughout_of_inputs (p := fun i => i.rst = false) (by simp [withInputs]) ?_
    intro i hi
    rw [List.eq_of_mem_replicate hi]
    rfl
  · refine throughout_of_inputs (p := fun i => i.tpOpenAck = false) (by simp [withInputs]) ?_
    intro i hi
    rw [List.eq_of_mem_replicate hi]
    rfl

/-- The sequence of 95_test_vectors.md 5.1: a command with the transport open, then quiet cycles. -/
def sequenceStart : State :=
  withInputs base (offerRsq 1 true :: List.replicate 200 quietInputs)

/-- For every cycle up to 201 after the command the hypotheses hold together: the boundaries 1, 50,
51, 100, 101 and 102 of the waveform among them. -/
theorem witness_SequenceWaveform (j : Nat) (h1 : 1 ≤ j) (h2 : j ≤ 201) :
    ∃ t, (sequenceStart.rsq.phase = .idle ∧ acceptedRsq sequenceStart = [.rsqEnter true] ∧
        sequenceStart.now.tpIsOpen = true) ∧
      throughout noReset j sequenceStart ∧ reaches j sequenceStart t ∧
      acceptedIn acceptedRsq j sequenceStart = acceptedRsq sequenceStart := by
  obtain ⟨k, rfl⟩ : ∃ k, j = k + 1 := ⟨j - 1, by omega⟩
  obtain ⟨t, ht⟩ := reaches_some (k + 1) sequenceStart
  obtain ⟨u, hu⟩ := step_next sequenceStart
  have hui : u.inputs = List.replicate 200 quietInputs := step_inputs hu
  have hquiet : throughout (fun v => v.now.rsqCmdValid = false) k u :=
    throughout_of_inputs (p := fun i => i.rsqCmdValid = false)
      (by rw [hui, List.length_replicate]; omega)
      (by rw [hui]; intro i hi; rw [List.eq_of_mem_replicate hi]; rfl)
  refine ⟨t, by decide, ?_, ht, ?_⟩
  · refine throughout_of_inputs (p := fun i => i.rst = false)
      (by
        show k + 1 ≤ (offerRsq 1 true :: List.replicate 200 quietInputs).length
        rw [List.length_cons, List.length_replicate]
        omega) ?_
    intro i hi
    rcases List.mem_cons.mp hi with h | h
    · rw [h]; rfl
    · rw [List.eq_of_mem_replicate h]; rfl
  · rw [acceptedIn_succ hu, acceptedIn_nil, List.append_nil]
    exact throughout_mono (fun v hv => by simp [acceptedRsq, hv]) hquiet

/-- The other way into `HOLD_RESET`. -/
theorem witness_SequenceWaveform_opened :
    (openWaiting true true).rsq.phase = .openWait ∧ (openWaiting true true).rsq.flash = true ∧
    (openWaiting true true).now.tpOpenAck = true ∧ (openWaiting true true).now.tpOpenOk = true := by
  decide

theorem witness_StepKeepsInvariant :
    ∃ t, (withInputs busyState [quietInputs]).Inv ∧
      step (withInputs busyState [quietInputs]) = .next t :=
  ⟨_, busyState_inv _, rfl⟩

theorem witness_TimerFitsItsRegister : base.Inv := base_inv

end Sys2Proof.Tests
end

/-! PROOFS of the family 00_scope: the order of commands, the parameters, the timer's register, and
which commands a step runs. -/

section
namespace Sys2Proof.Machine

/-! ### Commands of different units commute (R56, R187 point 5) -/

/-- Two instructions of different ports commute on any part of the state that only the instructions
of one port `p` change: at most one of the two is an instruction of `p`. -/
theorem commute_of_port_ne {α : Type} {f : Instr → α → α} {p : Port}
    (other : ∀ {i : Instr}, i.port ≠ p → ∀ a, f i a = a)
    {i j : Instr} (h : i.port ≠ j.port) (a : α) : f j (f i a) = f i (f j a) := by
  by_cases hi : i.port = p
  · have hj : j.port ≠ p := fun hj => h (hi.trans hj.symm)
    rw [other hj, other hj]
  · rw [other hi, other hi]

/-- Settles O13: unit by unit, at least one of the two instructions is another unit's and leaves the
unit alone. -/
theorem commandsOfDifferentUnitsCommute : Obligations.CommandsOfDifferentUnitsCommute := by
  intro i j s h
  have hEnc : onEnc j (onEnc i s.enc) = onEnc i (onEnc j s.enc) :=
    commute_of_port_ne onEnc_other h s.enc
  have hDec : onDec j (onDec i s.dec) = onDec i (onDec j s.dec) :=
    commute_of_port_ne onDec_other h s.dec
  have hCks : onCks s.cfg j (onCks s.cfg i s.cks) = onCks s.cfg i (onCks s.cfg j s.cks) :=
    commute_of_port_ne (fun hp => onCks_other hp s.cfg) h s.cks
  have hRsq : onRsq s.cfg s.now.tpIsOpen j (onRsq s.cfg s.now.tpIsOpen i s.rsq) =
      onRsq s.cfg s.now.tpIsOpen i (onRsq s.cfg s.now.tpIsOpen j s.rsq) :=
    commute_of_port_ne (fun hp => onRsq_other hp s.cfg s.now.tpIsOpen) h s.rsq
  simp only [execAll_eq, List.foldl_cons, List.foldl_nil, hEnc, hDec, hCks, hRsq]

/-! ### The parameters (R6) -/

/-- Settles O15, by induction over the run: every step, a reset edge too, keeps the parameters. -/
theorem parametersNeverChange : Obligations.ParametersNeverChange := by
  intro k s t h
  exact reaches_induction (P := fun u => u.cfg = s.cfg)
    (fun _ _ hu hstep => (step_keeps_cfg hstep).trans hu) rfl h

/-! ### The timer (R6, R154) -/

/-- `TW` is the least width: a register that holds `HOLD_CYCLES` has at least `TW` bits (R6). -/
theorem timerWidth_le {p : Params} {n : Nat} (h : p.holdCycles < 2 ^ n) : p.timerWidth ≤ n := by
  have hpos : p.holdCycles ≠ 0 := by have := holdCycles_ge p; omega
  exact (Nat.log2_lt hpos).mpr h

/-- In every phase the timer is at most `HOLD_CYCLES`. -/
theorem rsqInv_timer_le {s : State} (h : rsqInv s) : s.rsq.timer ≤ s.cfg.holdCycles := by
  cases hp : s.rsq.phase <;> simp only [rsqInv, hp] at h
  case idle => obtain ⟨ht, -⟩ := h; omega
  case openWait => obtain ⟨ht, -⟩ := h; omega
  case holdReset => obtain ⟨-, ht, -⟩ := h; exact ht
  case holdTarget => obtain ⟨-, ht, -⟩ := h; exact ht

/-- Settles O60: the timer is at most `HOLD_CYCLES`, which fits in `TW` bits and in no fewer. -/
theorem timerFitsItsRegister : Obligations.TimerFitsItsRegister := by
  intro s hInv
  obtain ⟨-, -, hRsq⟩ := hInv
  exact ⟨(rsqInv_timer_le hRsq).trans_lt (holdCycles_fits s.cfg), holdCycles_fits s.cfg,
    fun _ hn => timerWidth_le hn, holdCycles_ge s.cfg⟩

/-! ### Which commands a step runs (R9, R60) -/

/-- A word that is valid and ready is taken: the common form of `acceptedEnc` and its like. -/
theorem offered_taken {valid ready : Bool} {i : Instr} (hv : valid = true) (hr : ready = true) :
    (if valid && ready then [i] else []) = [i] := by
  rw [hv, hr]; rfl

/-- A word that is not valid or not ready is not taken. -/
theorem offered_waits {valid ready : Bool} {i : Instr} (h : valid = false ∨ ready = false) :
    (if valid && ready then [i] else []) = [] := by
  rcases h with h | h <;> simp [h]

/-- CKS is ready in every cycle outside reset (R138). -/
theorem cksCmdReady_of_noReset {s : State} (h : s.now.rst = false) : cksCmdReady s = true := by
  simp [cksCmdReady, h]

theorem execAll_singleton (i : Instr) (s : State) : execAll [i] s = exec i s := by
  rw [execAll_eq, exec_eq]; rfl

/-- A step outside reset: the edge's own work, the accepted commands, the end of the cycle. -/
theorem step_of_execAll {s t : State} (h : s.now.rst = false)
    (he : execAll (accepted s) (quietEdge s) = .next t) : step s = .next t.advance := by
  simp [step, clockEdge, h, he, endCycle]

/-- Settles O8: each port takes its word exactly when it is valid and ready, and no accepted command
stops, so that the step is the edge, the commands, and the end of the cycle. -/
theorem stepRunsDecodedInstruction : Obligations.StepRunsDecodedInstruction := by
  intro s hr
  refine ⟨offered_taken, offered_taken, fun hv => offered_taken hv (cksCmdReady_of_noReset hr),
    offered_taken, offered_waits, offered_waits, fun hv => offered_waits (.inl hv),
    offered_waits, fun ha => ?none, fun i ha => ?one, ?all⟩
  case none => exact step_of_execAll hr (by rw [ha]; rfl)
  case one =>
    obtain ⟨t, ht⟩ := exec_next i (quietEdge s)
    exact ⟨t, ht, step_of_execAll hr (by rw [ha, execAll_singleton, ht])⟩
  case all =>
    obtain ⟨t, ht⟩ := execAll_next (accepted s) (quietEdge s)
    exact ⟨t, ht, step_of_execAll hr ht⟩

end Sys2Proof.Machine
end

/-! PROOFS of the family 10_state: the reset values, the bits of the status words, and the invariant:
it holds of the reset state, and every step keeps ENC's, DEC's and RSQ's part of it. -/

section
namespace Sys2Proof.Machine

/-! ### Reset (R33, R200) -/

/-- In the reset state and after an edge with `rst == 1`, every unit has its reset value and the output
sequences are empty. -/
theorem units_reset {s t : State}
    (h : (s.now.rst = true ∧ step s = .next t) ∨ t = State.reset) :
    t.enc = Enc.reset ∧ t.dec = Dec.reset ∧ t.cks = Cks.reset t.cfg ∧ t.rsq = Rsq.reset ∧
    t.txOut = [] ∧ t.doutOut = [] := by
  rcases h with ⟨hr, hstep⟩ | rfl
  · rw [step_reset hr] at hstep
    cases hstep
    simp
  · exact ⟨rfl, rfl, rfl, rfl, rfl, rfl⟩

/-- Settles O16: each element is a field of one unit's reset value. -/
theorem resetGivesEveryElementItsValue : Obligations.ResetGivesEveryElementItsValue := by
  intro s t h
  obtain ⟨hEnc, hDec, hCks, hRsq, -, -⟩ := units_reset h
  simp [hEnc, hDec, hCks, hRsq, Enc.reset, Dec.reset, Cks.reset, Rsq.reset]

/-- The invariant holds of the reset state and after every edge with `rst == 1`. -/
theorem inv_of_reset {s t : State}
    (h : (s.now.rst = true ∧ step s = .next t) ∨ t = State.reset) : t.Inv := by
  obtain ⟨hEnc, hDec, -, hRsq, hTx, hDout⟩ := units_reset h
  refine ⟨?enc, ?dec, ?rsq⟩
  case enc => simp [encInv, State.wire, hEnc, hTx, Enc.reset, wireScan]
  case dec => simp [decInv, State.items, hDec, hDout, Dec.reset, itemsClosed]
  case rsq => simp [rsqInv, hRsq, Rsq.reset]

/-- Settles O58. -/
theorem invariantAtReset : Obligations.InvariantAtReset := inv_of_reset (s := State.reset) (.inr rfl)

/-! ### The status words (R24, R25, R27, R29, R30, R32) -/

theorem encStatus_bits (e : Enc) :
    (encStatus e).getLsbD 0 = e.inFrame ∧ ((encStatus e).getLsbD 1 = true ↔ e.buf ≠ []) ∧
    (encStatus e).getLsbD 2 = e.seqerr ∧ (encStatus e).getLsbD 3 = e.illop := by
  have pack : ∀ a b c d : Bool,
      let w : BitVec 4 := BitVec.ofBool a ++ BitVec.ofBool b ++ BitVec.ofBool c ++ BitVec.ofBool d
      w.getLsbD 0 = d ∧ w.getLsbD 1 = c ∧ w.getLsbD 2 = b ∧ w.getLsbD 3 = a := by decide
  obtain ⟨hFrame, hBusy, hSeq, hIll⟩ := pack e.illop e.seqerr (e.buf.length != 0) e.inFrame
  refine ⟨hFrame, ?_, hSeq, hIll⟩
  rw [encStatus, hBusy]
  simp

theorem decStatus_full (d : Dec) : (decStatus d).getLsbD 2 = true ↔ d.obuf ≠ none := by
  have pack : ∀ (a : Bool) (p : BitVec 2), (BitVec.ofBool a ++ p).getLsbD 2 = a := by decide
  rw [decStatus, pack, Option.isSome_iff_ne_none]

theorem rsqStatus_bits (r : Rsq) :
    (rsqStatus r).getLsbD 3 = r.flash ∧ (rsqStatus r).getLsbD 4 = r.dtr ∧
    (rsqStatus r).getLsbD 5 = r.rts ∧ (rsqStatus r).getLsbD 6 = rsqResultBit r.result ∧
    (rsqStatus r).getLsbD 7 = r.done := by
  have pack : ∀ (a b c d e : Bool) (p : BitVec 3),
      let w : BitVec 8 := BitVec.ofBool a ++ BitVec.ofBool b ++ BitVec.ofBool c ++
        BitVec.ofBool d ++ BitVec.ofBool e ++ p
      w.getLsbD 3 = e ∧ w.getLsbD 4 = d ∧ w.getLsbD 5 = c ∧ w.getLsbD 6 = b ∧
      w.getLsbD 7 = a := by decide
  exact pack r.done (rsqResultBit r.result) r.rts r.dtr r.flash (rsqPhaseCode r.phase)

theorem rsqResultBit_eq_true {x : RsqResult} : rsqResultBit x = true ↔ x = .transportError := by
  cases x <;> decide

theorem decPhaseCode_inj {p q : DecPhase} : decPhaseCode p = decPhaseCode q ↔ p = q := by
  cases p <;> cases q <;> decide

theorem rsqPhaseCode_inj {p q : RsqPhase} : rsqPhaseCode p = rsqPhaseCode q ↔ p = q := by
  cases p <;> cases q <;> decide

theorem decStatus_phase_iff (d : Dec) (p : DecPhase) :
    (decStatus d).extractLsb' 0 2 = decPhaseCode p ↔ d.phase = p := by
  rw [decStatus_phase, decPhaseCode_inj]

theorem rsqStatus_phase_iff (r : Rsq) (p : RsqPhase) :
    (rsqStatus r).extractLsb' 0 3 = rsqPhaseCode p ↔ r.phase = p := by
  rw [rsqStatus_phase, rsqPhaseCode_inj]

/-- Settles O19: each bit is one operand of the concatenation, and the codes of the phases differ. -/
theorem statusWordBits : Obligations.StatusWordBits := by
  intro s
  obtain ⟨hFrame, hBusy, hSeq, hIll⟩ := encStatus_bits s.enc
  obtain ⟨hFlash, hDtr, hRts, hResult, hDone⟩ := rsqStatus_bits s.rsq
  have hCks : (cksStatus s.cks).getLsbD 0 = s.cks.illop := by simp [cksStatus]
  have hErr : (rsqStatus s.rsq).getLsbD 6 = true ↔ s.rsq.result = .transportError := by
    rw [hResult, rsqResultBit_eq_true]
  exact ⟨hFrame, hBusy, hSeq, hIll,
    decStatus_phase_iff s.dec .header, decStatus_phase_iff s.dec .body,
    decStatus_phase_iff s.dec .escape, decStatus_phase_iff s.dec .skip, decStatus_full s.dec, hCks,
    rsqStatus_phase_iff s.rsq .idle, rsqStatus_phase_iff s.rsq .openWait,
    rsqStatus_phase_iff s.rsq .holdReset, rsqStatus_phase_iff s.rsq .holdTarget,
    hFlash, hDtr, hRts, hErr, hDone⟩

/-! ### The invariant: ENC (R22, R23, R87) -/

/-- Where a reader of the wire stands between two commands of ENC. -/
def framePlace (inFrame : Bool) : WirePlace := if inFrame then .inside else .outside

theorem wireScan_append (xs ys : List Byte) :
    wireScan (xs ++ ys) = ys.foldl wireStep (wireScan xs) :=
  List.foldl_append

/-- The wire form of a payload byte keeps the reader inside the frame (R68). -/
theorem foldl_wireStep_escapeByte (b : Byte) :
    (escapeByte b).foldl wireStep (some .inside) = some .inside := by
  unfold escapeByte
  split
  next => decide
  next hDelim =>
    split
    next => decide
    next hEsc => simp [wireStep, hDelim, hEsc]

/-- A delimiter opens a frame or closes the open one. -/
theorem wireStep_slipDelim (f : Bool) :
    wireStep (some (framePlace f)) slipDelim = some (framePlace !f) := by
  cases f <;> decide

theorem escapeByte_eq_pair {a b : Byte} :
    (∃ c, escapeByte c = [a, b]) ↔ a = slipEsc ∧ (b = slipEscDelim ∨ b = slipEscEsc) := by
  constructor
  · rintro ⟨c, h⟩
    unfold escapeByte at h
    split at h
    next => cases h; exact ⟨rfl, .inl rfl⟩
    next =>
      split at h
      next => cases h; exact ⟨rfl, .inr rfl⟩
      next => cases h
  · rintro ⟨rfl, rfl | rfl⟩
    · exact ⟨slipDelim, by decide⟩
    · exact ⟨slipEsc, by decide⟩

theorem escapeByte_length_le (b : Byte) : (escapeByte b).length ≤ 2 := by
  unfold escapeByte
  split
  next => decide
  next => split <;> simp

/-- What `ENC.buf` may hold: at most one byte, or the wire form of a payload byte (R23, R82). -/
theorem encInv_iff {s : State} :
    encInv s ↔ (s.enc.buf.length ≤ 1 ∨ ∃ c, escapeByte c = s.enc.buf) ∧
      wireScan s.wire = some (framePlace s.enc.inFrame) := by
  refine and_congr ?_ Iff.rfl
  rcases s.enc.buf with _ | ⟨a, _ | ⟨b, _ | ⟨c, rest⟩⟩⟩
  case nil => simp
  case cons.nil => simp
  case cons.cons.nil => simp [escapeByte_eq_pair]
  case cons.cons.cons =>
    have hLong (x : Byte) : escapeByte x ≠ a :: b :: c :: rest := by
      intro h
      have hLen := escapeByte_length_le x
      simp [h] at hLen
    simp [hLong]

/-- Everything a command can do to an ENC that is free to take it: send nothing, send the wire form of
a payload byte in a frame, or send a delimiter and turn `in_frame` (R81 to R85). -/
theorem onEnc_cases {e : Enc} (h : e.buf = []) (i : Instr) :
    ((onEnc i e).buf = [] ∧ (onEnc i e).inFrame = e.inFrame) ∨
    (∃ b, (onEnc i e).buf = escapeByte b ∧ e.inFrame = true ∧ (onEnc i e).inFrame = true) ∨
    ((onEnc i e).buf = [slipDelim] ∧ (onEnc i e).inFrame = !e.inFrame) := by
  cases i
  case encByte b =>
    simp only [onEnc, encTake_free h]
    cases hFrame : e.inFrame
    case false => exact .inl (by simp [encByte, encRaiseSequence, h, hFrame])
    case true => exact .inr (.inl ⟨b, by simp [encByte_inFrame hFrame, encSend, hFrame]⟩)
  case encBegin =>
    simp only [onEnc, encTake_free h]
    cases hFrame : e.inFrame
    case false => exact .inr (.inr (by simp [encBegin, encSend, hFrame]))
    case true => exact .inl (by simp [encBegin, encRaiseSequence, h, hFrame])
  case encEnd =>
    simp only [onEnc, encTake_free h]
    cases hFrame : e.inFrame
    case false => exact .inl (by simp [encEnd, encRaiseSequence, h, hFrame])
    case true => exact .inr (.inr (by simp [encEnd, encSend, hFrame]))
  case encReserved => exact .inl (by simp [onEnc, encTake_free h, encRaiseIllegal, h])
  all_goals exact .inl ⟨h, rfl⟩

/-- The bytes of a command take the reader of the wire to where `in_frame` says. -/
theorem foldl_wireStep_onEnc {e : Enc} (h : e.buf = []) (i : Instr) :
    (onEnc i e).buf.foldl wireStep (some (framePlace e.inFrame)) =
      some (framePlace (onEnc i e).inFrame) := by
  rcases onEnc_cases h i with ⟨hb, hf⟩ | ⟨b, hb, hf, hf'⟩ | ⟨hb, hf⟩
  · rw [hb, hf]; rfl
  · rw [hb, hf, hf']; exact foldl_wireStep_escapeByte b
  · rw [hb, hf]; exact wireStep_slipDelim e.inFrame

theorem step_encInv {s t : State} (hr : s.now.rst = false) (h : step s = .next t)
    (hs : encInv s) : encInv t := by
  rw [encInv_iff] at hs ⊢
  obtain ⟨hBuf, hWire⟩ := hs
  rcases acceptedEnc_cases s with ha | ⟨i, ha⟩
  · obtain ⟨hEnc, hKept⟩ := step_enc_quiet hr h ha
    rw [hKept, hWire, hEnc]
    refine ⟨?_, rfl⟩
    cases s.now.txReady
    case false => exact hBuf
    case true =>
      have hLen : s.enc.buf.length ≤ 2 := by
        rcases hBuf with hBuf | ⟨c, hc⟩
        · omega
        · exact hc ▸ escapeByte_length_le c
      left
      simp only [if_true, List.length_tail]
      omega
  · obtain ⟨hEnc, hGrown⟩ := step_enc_command hr h ha
    have hFree : ({ s.enc with buf := [] } : Enc).buf = [] := rfl
    rw [hGrown, wireScan_append, hWire, hEnc]
    refine ⟨?_, foldl_wireStep_onEnc hFree i⟩
    rcases onEnc_cases hFree i with ⟨hb, -⟩ | ⟨b, hb, -⟩ | ⟨hb, -⟩
    · left; simp [hb]
    · exact .inr ⟨b, hb.symm⟩
    · left; simp [hb]

/-! ### The invariant: DEC (R65, R105) -/

theorem legalItem_doutByte (b : Byte) : legalItem (doutByte b) := by
  left; revert b; decide

theorem legalItem_doutResult (r : DecodeResult) : legalItem (doutResult r) := by
  right; cases r <;> decide

theorem itemsClosed_append_doutResult (xs : List DoutItem) (r : DecodeResult) :
    itemsClosed (xs ++ [doutResult r]) := by
  simp only [itemsClosed, List.getLast?_concat]
  cases r <;> decide

/-- Everything a word can do to a DEC that is free to take it: emit nothing, and come to `HEADER` or
`SKIP` only from one of them; emit a payload byte and go to `BODY`; or emit a result (R102, R103). -/
theorem onDec_cases {d : Dec} (h : d.obuf = none) (i : Instr) :
    ((onDec i d).obuf = none ∧ ((onDec i d).phase = .header ∨ (onDec i d).phase = .skip →
      d.phase = .header ∨ d.phase = .skip)) ∨
    (∃ b, (onDec i d).obuf = some (doutByte b) ∧ (onDec i d).phase = .body) ∨
    (∃ r, (onDec i d).obuf = some (doutResult r)) := by
  cases i
  case decByte b =>
    simp only [onDec, decTake_free h, decByte]
    cases hPhase : d.phase
    case header =>
      dsimp only
      split
      next => exact .inl ⟨h, by simp [decGoto]⟩
      next => exact .inr (.inr ⟨_, rfl⟩)
    case body =>
      dsimp only
      split
      next => exact .inr (.inr ⟨_, rfl⟩)
      next =>
        split
        next => exact .inl ⟨h, by simp [decGoto]⟩
        next => exact .inr (.inl ⟨_, rfl, hPhase⟩)
    case escape =>
      dsimp only
      split
      next => exact .inr (.inl ⟨_, rfl, rfl⟩)
      next =>
        split
        next => exact .inr (.inl ⟨_, rfl, rfl⟩)
        next => exact .inr (.inr ⟨_, rfl⟩)
    case skip => exact .inl ⟨h, fun _ => .inr rfl⟩
  case decEnd =>
    simp only [onDec, decTake_free h, decEnd]
    cases d.phase
    case skip => exact .inl ⟨h, fun _ => .inr rfl⟩
    all_goals exact .inr (.inr ⟨_, rfl⟩)
  all_goals exact .inl ⟨h, id⟩

theorem step_decInv {s t : State} (hr : s.now.rst = false) (h : step s = .next t)
    (hs : decInv s) : decInv t := by
  obtain ⟨hLegal, hClosed⟩ := hs
  rcases acceptedDec_cases s with ha | ⟨i, ha⟩
  · obtain ⟨hDec, hItems⟩ := step_dec_quiet hr h ha
    rw [decInv, hItems, hDec]
    exact ⟨hLegal, hClosed⟩
  · obtain ⟨hDec, hItems⟩ := step_dec_command hr h ha
    have hFree : ({ s.dec with obuf := none } : Dec).obuf = none := rfl
    rw [decInv, hItems, hDec]
    rcases onDec_cases hFree i with ⟨ho, hPhase⟩ | ⟨b, ho, hPhase⟩ | ⟨r, ho⟩
    · simp only [ho, Option.toList_none, List.append_nil]
      exact ⟨hLegal, fun hq => hClosed (hPhase hq)⟩
    · simp only [ho, hPhase, Option.toList_some, List.forall_mem_append, List.forall_mem_singleton]
      exact ⟨⟨hLegal, legalItem_doutByte b⟩, by simp⟩
    · simp only [ho, Option.toList_some, List.forall_mem_append, List.forall_mem_singleton]
      exact ⟨⟨hLegal, legalItem_doutResult r⟩, fun _ => itemsClosed_append_doutResult _ r⟩

/-! ### The invariant: RSQ (R154, R157, R158) -/

theorem rsqEdge_openWait_ok {p : Params} {i : Inputs} {r : Rsq} (h : r.phase = .openWait)
    (ha : i.tpOpenAck = true) (ho : i.tpOpenOk = true) :
    rsqEdge p i r = rsqHoldReset p { rsqClearDone r with openReq := false } := by
  simp [rsqEdge, h, ha, ho]

theorem rsqEdge_openWait_failed {p : Params} {i : Inputs} {r : Rsq} (h : r.phase = .openWait)
    (ha : i.tpOpenAck = true) (ho : i.tpOpenOk = false) :
    rsqEdge p i r = rsqRaiseTransport { r with openReq := false } := by
  simp [rsqEdge, h, ha, ho]

/-- RSQ's part of the invariant speaks of RSQ and the parameters alone. -/
theorem rsqInv_of_eq {s t : State} {r : Rsq} (hcfg : t.cfg = s.cfg) (hrsq : t.rsq = r)
    (h : rsqInv (s.withRsq r)) : rsqInv t := by
  subst hrsq
  simpa only [rsqInv, hcfg, State.withRsq_rsq, State.withRsq_cfg] using h

theorem one_le_holdCycles (p : Params) : 1 ≤ p.holdCycles := by
  have := holdCycles_ge p
  omega

/-- A hold that goes on counts within its range (R154). -/
theorem rsqTimerPred_range {p : Params} {t : Nat} (hLow : 1 ≤ t) (hHigh : t ≤ p.holdCycles)
    (ht : t ≠ 1) : 1 ≤ rsqTimerPred p t ∧ rsqTimerPred p t ≤ p.holdCycles := by
  rw [rsqTimerPred_pos (by omega)]
  omega

/-- Either way into `HOLD_RESET`. -/
theorem rsqInv_rsqHoldReset {s : State} {r : Rsq} (hReq : r.openReq = false)
    (hDone : r.done = false) : rsqInv (s.withRsq (rsqHoldReset s.cfg r)) := by
  simp [rsqInv, rsqHoldReset, hReq, hDone, one_le_holdCycles]

theorem rsqInv_rsqHoldTarget {s : State} {r : Rsq} (hReq : r.openReq = false)
    (hDone : r.done = false) : rsqInv (s.withRsq (rsqHoldTarget s.cfg r)) := by
  simp [rsqInv, rsqHoldTarget, hReq, hDone, one_le_holdCycles]

/-- RSQ's own step keeps its part of the invariant. -/
theorem rsqInv_rsqEdge {s : State} (i : Inputs) (h : rsqInv s) :
    rsqInv (s.withRsq (rsqEdge s.cfg i s.rsq)) := by
  cases hp : s.rsq.phase <;> simp only [rsqInv, hp] at h
  case idle =>
    rw [rsqEdge_idle hp]
    simpa [rsqInv, rsqClearDone, hp] using h
  case openWait =>
    obtain ⟨hTimer, hDtr, hRts, hReq, -⟩ := h
    cases ha : i.tpOpenAck
    case false =>
      rw [rsqEdge_openWait hp ha]
      simp [rsqInv, rsqClearDone, hp, hTimer, hDtr, hRts, hReq]
    case true =>
      cases ho : i.tpOpenOk
      case false =>
        rw [rsqEdge_openWait_failed hp ha ho]
        simp [rsqInv, rsqRaiseTransport, hTimer, hDtr, hRts]
      case true =>
        rw [rsqEdge_openWait_ok hp ha ho]
        exact rsqInv_rsqHoldReset rfl rfl
  case holdReset =>
    obtain ⟨hLow, hHigh, hDtr, hRts, hReq, -⟩ := h
    by_cases ht : s.rsq.timer = 1
    · rw [rsqEdge_holdReset_end hp ht]
      exact rsqInv_rsqHoldTarget hReq rfl
    · rw [rsqEdge_holdReset_count hp ht]
      simpa [rsqInv, rsqCount, rsqClearDone, hp, hDtr, hRts, hReq] using
        rsqTimerPred_range hLow hHigh ht
  case holdTarget =>
    obtain ⟨hLow, hHigh, hDtr, hRts, hReq, -⟩ := h
    by_cases ht : s.rsq.timer = 1
    · rw [rsqEdge_holdTarget_end hp ht]
      simp [rsqInv, rsqRelease, hRts, hReq]
    · rw [rsqEdge_holdTarget_count hp ht]
      simpa [rsqInv, rsqCount, rsqClearDone, hp, hDtr, hRts, hReq] using
        rsqTimerPred_range hLow hHigh ht

/-- `RSQ.ENTER` in `IDLE` keeps it, with the transport open and closed (R151). -/
theorem rsqInv_rsqEnter {s : State} (isOpen flash : Bool) (h : rsqInv s)
    (hp : s.rsq.phase = .idle) : rsqInv (s.withRsq (rsqEnter s.cfg isOpen flash s.rsq)) := by
  simp only [rsqInv, hp] at h
  obtain ⟨hTimer, hDtr, hRts, hReq⟩ := h
  cases isOpen
  case false => simp [rsqInv, rsqEnter, rsqClearDone, hTimer, hDtr, hRts]
  case true => exact rsqInv_rsqHoldReset hReq rfl

theorem step_rsqInv {s t : State} (hr : s.now.rst = false) (h : step s = .next t)
    (hs : rsqInv s) : rsqInv t := by
  have hEdge := rsqInv_rsqEdge s.now hs
  have hRsq := step_rsq hr h
  rcases acceptedRsq_cases s with ha | ⟨hp, f, ha⟩
  · rw [ha] at hRsq
    exact rsqInv_of_eq (step_keeps_cfg h) hRsq hEdge
  · have hIdle : (rsqEdge s.cfg s.now s.rsq).phase = .idle := by rw [rsqEdge_idle hp]; exact hp
    rw [ha, List.foldl_cons, List.foldl_nil, onRsq, rsqTake_idle hIdle] at hRsq
    exact rsqInv_of_eq (step_keeps_cfg h) hRsq
      (rsqInv_rsqEnter s.now.tpIsOpen f hEdge hIdle)

/-- Settles O59: a reset edge leads to the reset values, and at every other edge ENC, DEC and RSQ keep
their parts of the invariant each by itself. -/
theorem stepKeepsInvariant : Obligations.StepKeepsInvariant := by
  intro s t hInv h
  cases hr : s.now.rst
  case true => exact inv_of_reset (.inl ⟨hr, h⟩)
  case false =>
    obtain ⟨hEnc, hDec, hRsq⟩ := hInv
    exact ⟨step_encInv hr h hEnc, step_decInv hr h hDec, step_rsqInv hr h hRsq⟩

end Sys2Proof.Machine
end

/-! PROOFS of the family 20_memory: an instruction changes its own unit alone, and a unit's part of
a step depends on its own state and ports, `rst` and the parameters alone (R56). -/

section
namespace Sys2Proof.Machine

/-! ### The frame of an instruction (R56) -/

/-- Settles O12: what an instruction does to each unit (`exec_eq`) is nothing for a unit of another
port. -/
theorem otherUnitsUnchanged : Obligations.OtherUnitsUnchanged := by
  intro i s t h
  rw [exec_eq] at h
  cases h
  exact ⟨fun hp => onEnc_other hp s.enc, fun hp => onDec_other hp s.dec,
    fun hp => onCks_other hp s.cfg s.cks, fun hp => onRsq_other hp s.cfg s.now.tpIsOpen s.rsq,
    rfl, rfl, rfl, rfl, rfl⟩

/-! ### What a unit's acceptance depends on (R60, R90, R112, R138, R150) -/

theorem acceptedEnc_congr {s s' : State} (hRst : s.now.rst = s'.now.rst) (hEnc : s.enc = s'.enc)
    (hValid : s.now.encCmdValid = s'.now.encCmdValid) (hCmd : s.now.encCmd = s'.now.encCmd)
    (hTake : s.now.txReady = s'.now.txReady) : acceptedEnc s = acceptedEnc s' := by
  have hReady : encCmdReady s = encCmdReady s' := by simp only [encCmdReady, hRst, hEnc, hTake]
  rw [acceptedEnc, acceptedEnc, hValid, hReady, hCmd]

theorem acceptedDec_congr {s s' : State} (hRst : s.now.rst = s'.now.rst) (hDec : s.dec = s'.dec)
    (hValid : s.now.rxValid = s'.now.rxValid) (hWord : s.now.rxWord = s'.now.rxWord)
    (hTake : s.now.doutReady = s'.now.doutReady) : acceptedDec s = acceptedDec s' := by
  have hReady : rxReady s = rxReady s' := by simp only [rxReady, hRst, hDec, hTake]
  rw [acceptedDec, acceptedDec, hValid, hReady, hWord]

theorem acceptedCks_congr {s s' : State} (hRst : s.now.rst = s'.now.rst)
    (hValid : s.now.cksCmdValid = s'.now.cksCmdValid) (hCmd : s.now.cksCmd = s'.now.cksCmd) :
    acceptedCks s = acceptedCks s' := by
  have hReady : cksCmdReady s = cksCmdReady s' := by simp only [cksCmdReady, hRst]
  rw [acceptedCks, acceptedCks, hValid, hReady, hCmd]

theorem acceptedRsq_congr {s s' : State} (hRst : s.now.rst = s'.now.rst) (hRsq : s.rsq = s'.rsq)
    (hValid : s.now.rsqCmdValid = s'.now.rsqCmdValid) (hCmd : s.now.rsqCmd = s'.now.rsqCmd) :
    acceptedRsq s = acceptedRsq s' := by
  have hReady : rsqCmdReady s = rsqCmdReady s' := by simp only [rsqCmdReady, hRst, hRsq]
  rw [acceptedRsq, acceptedRsq, hValid, hReady, hCmd]

/-- RSQ's own step sees two input ports alone: `tp_open_ack` and `tp_open_ok` (R152, R153). -/
theorem rsqEdge_congr {i i' : Inputs} (hAck : i.tpOpenAck = i'.tpOpenAck)
    (hOk : i.tpOpenOk = i'.tpOpenOk) (p : Params) (r : Rsq) : rsqEdge p i r = rsqEdge p i' r := by
  simp only [rsqEdge, hAck, hOk]

/-! ### Two steps that agree about one unit -/

/-- ENC's part of a step outside reset: the byte leaves, then the accepted command acts (R91). -/
theorem step_enc {s t : State} (hr : s.now.rst = false) (h : step s = .next t) :
    t.enc = (acceptedEnc s).foldl (fun e i => onEnc i e) (quietEdge s).enc ∧
    t.txOut = (quietEdge s).txOut := by
  rw [step_running hr] at h; cases h; exact ⟨rfl, rfl⟩

/-- DEC's part of a step outside reset: the item leaves, then the accepted word acts (R111). -/
theorem step_dec {s t : State} (hr : s.now.rst = false) (h : step s = .next t) :
    t.dec = (acceptedDec s).foldl (fun d i => onDec i d) (quietEdge s).dec ∧
    t.doutOut = (quietEdge s).doutOut := by
  rw [step_running hr] at h; cases h; exact ⟨rfl, rfl⟩

section TwoSteps
variable {s s' t t' : State}

/-- Two edges with `rst == 1` and the same parameters leave every unit alike, whatever the states
before (R200). -/
theorem units_eq_of_reset (h : step s = .next t) (h' : step s' = .next t')
    (hr : s.now.rst = true) (hr' : s'.now.rst = true) (hCfg : s.cfg = s'.cfg) :
    (t.enc = t'.enc ∧ t.txOut = t'.txOut) ∧ (t.dec = t'.dec ∧ t.doutOut = t'.doutOut) ∧
    t.cks = t'.cks ∧ t.rsq = t'.rsq := by
  rw [step_reset hr] at h
  rw [step_reset hr'] at h'
  cases h
  cases h'
  simp [hCfg]

variable (h : step s = .next t) (h' : step s' = .next t') (hr : s.now.rst = false)
  (hr' : s'.now.rst = false)
include h h' hr hr'

theorem enc_eq_of_step (hEnc : s.enc = s'.enc) (hOut : s.txOut = s'.txOut)
    (hValid : s.now.encCmdValid = s'.now.encCmdValid) (hCmd : s.now.encCmd = s'.now.encCmd)
    (hTake : s.now.txReady = s'.now.txReady) : t.enc = t'.enc ∧ t.txOut = t'.txOut := by
  have hAcc := acceptedEnc_congr (hr.trans hr'.symm) hEnc hValid hCmd hTake
  obtain ⟨hE, hO⟩ := step_enc hr h
  obtain ⟨hE', hO'⟩ := step_enc hr' h'
  rw [hE, hO, hE', hO', hAcc]
  simp only [quietEdge_enc, quietEdge_txOut, hEnc, hOut, hTake, and_self]

theorem dec_eq_of_step (hDec : s.dec = s'.dec) (hOut : s.doutOut = s'.doutOut)
    (hValid : s.now.rxValid = s'.now.rxValid) (hWord : s.now.rxWord = s'.now.rxWord)
    (hTake : s.now.doutReady = s'.now.doutReady) : t.dec = t'.dec ∧ t.doutOut = t'.doutOut := by
  have hAcc := acceptedDec_congr (hr.trans hr'.symm) hDec hValid hWord hTake
  obtain ⟨hD, hO⟩ := step_dec hr h
  obtain ⟨hD', hO'⟩ := step_dec hr' h'
  rw [hD, hO, hD', hO', hAcc]
  simp only [quietEdge_dec, quietEdge_doutOut, hDec, hOut, hTake, and_self]

variable (hCfg : s.cfg = s'.cfg)
include hCfg

theorem cks_eq_of_step (hCks : s.cks = s'.cks)
    (hValid : s.now.cksCmdValid = s'.now.cksCmdValid) (hCmd : s.now.cksCmd = s'.now.cksCmd) :
    t.cks = t'.cks := by
  have hAcc := acceptedCks_congr (hr.trans hr'.symm) hValid hCmd
  rw [step_cks hr h, step_cks hr' h', hAcc, hCfg, hCks]

theorem rsq_eq_of_step (hRsq : s.rsq = s'.rsq)
    (hValid : s.now.rsqCmdValid = s'.now.rsqCmdValid) (hCmd : s.now.rsqCmd = s'.now.rsqCmd)
    (hOpen : s.now.tpIsOpen = s'.now.tpIsOpen) (hAck : s.now.tpOpenAck = s'.now.tpOpenAck)
    (hOk : s.now.tpOpenOk = s'.now.tpOpenOk) : t.rsq = t'.rsq := by
  have hAcc := acceptedRsq_congr (hr.trans hr'.symm) hRsq hValid hCmd
  have hEdge := rsqEdge_congr hAck hOk s'.cfg s'.rsq
  rw [step_rsq hr h, step_rsq hr' h', hAcc, hCfg, hRsq, hOpen, hEdge]

end TwoSteps

/-- Settles O14: at a reset edge every unit takes the reset value of the same parameters; at any
other edge each unit accepts the same command and makes the same of it in both states. -/
theorem unitsShareNoState : Obligations.UnitsShareNoState := by
  intro s s' t t' h h' hRst hCfg
  cases hr : s.now.rst
  case true =>
    obtain ⟨hEnc, hDec, hCks, hRsq⟩ := units_eq_of_reset h h' hr (hRst.symm.trans hr) hCfg
    exact ⟨fun _ _ _ _ _ => hEnc, fun _ _ _ _ _ => hDec, fun _ _ _ => hCks,
      fun _ _ _ _ _ _ => hRsq⟩
  case false =>
    have hr' : s'.now.rst = false := hRst.symm.trans hr
    exact ⟨enc_eq_of_step h h' hr hr', dec_eq_of_step h h' hr hr',
      cks_eq_of_step h h' hr hr' hCfg, rsq_eq_of_step h h' hr hr' hCfg⟩

end Sys2Proof.Machine
end

/-! PROOFS of the family 30_encoding: decoding and encoding undo each other, every word hits its own
row of the opcode table, what an assembler line stands for, and when a word offered to a unit is taken
(R60 to R71). -/

section
namespace Sys2Proof

/-! ### The fields of a word (R61) -/

theorem enc10Op_word (op : BitVec 2) (data : Byte) : enc10Op (enc10Word op data) = op :=
  BitVec.extractLsb'_append_eq_left

theorem enc10Data_word (op : BitVec 2) (data : Byte) : enc10Data (enc10Word op data) = data :=
  BitVec.extractLsb'_append_eq_right

theorem dec9Kind_word (kind : BitVec 1) (data : Byte) : dec9Kind (dec9Word kind data) = kind :=
  BitVec.extractLsb'_append_eq_left

theorem dec9Data_word (kind : BitVec 1) (data : Byte) : dec9Data (dec9Word kind data) = data :=
  BitVec.extractLsb'_append_eq_right

theorem bitVec1_cases (x : BitVec 1) : x = 0#1 ∨ x = 1#1 := by
  revert x; decide

theorem bitVec2_cases (x : BitVec 2) : x = 0b00#2 ∨ x = 0b01#2 ∨ x = 0b10#2 ∨ x = 0b11#2 := by
  revert x; decide

/-! ### Decoding and encoding undo each other (R62, R64, R66, R67) -/

theorem decode_encode (i : Instr) : decode (encode i) = i := by
  cases i
  case rsqEnter f => cases f <;> rfl
  case decByte | decEnd => simp [encode, decode, decodeDec9, dec9Kind_word, dec9Data_word]
  case encByte | encBegin | encEnd | encReserved =>
    simp [encode, decode, decodeEnc10, enc10Op_word, enc10Data_word]
  case cksWord | cksInit | cksInitm | cksReserved =>
    simp [encode, decode, decodeCks34, cks34Op_word, cks34Data_word]

/-- A word is the encoding of what it decodes to: its fields, put together again. -/
theorem encode_decode (w : PortWord) : encode (decode w) = w := by
  cases w
  case enc w =>
    rw [← enc10Word_fields w]
    rcases bitVec2_cases (enc10Op w) with h | h | h | h <;>
      simp [decode, decodeEnc10, encode, enc10Op_word, enc10Data_word, h]
  case dec w =>
    rw [← dec9Word_fields w]
    rcases bitVec1_cases (dec9Kind w) with h | h <;>
      simp [decode, decodeDec9, encode, dec9Kind_word, dec9Data_word, h]
  case cks w =>
    rw [← cks34Word_fields w]
    rcases bitVec2_cases (cks34Op w) with h | h | h | h <;>
      simp [decode, decodeCks34, encode, cks34Op_word, cks34Data_word, h]
  case rsq w => rcases bitVec1_cases w with rfl | rfl <;> rfl

theorem encode_port (i : Instr) : (encode i).port = i.port := by
  rw [← Machine.decode_port, decode_encode]

theorem decode_eq_of_encode {i : Instr} {w : PortWord} (h : encode i = w) : decode w = i := by
  rw [← h, decode_encode]

/-! ### Numbers as words of a port (R61) -/

theorem PortWord.toNat_lt (w : PortWord) : w.toNat < 2 ^ w.port.width := by
  cases w <;> exact BitVec.isLt _

theorem portWord_toNat (w : PortWord) : portWord w.port w.toNat = .ok w := by
  unfold portWord
  rw [if_pos w.toNat_lt]
  cases w <;> simp [PortWord.port, PortWord.toNat]

theorem decodeNat_toNat (w : PortWord) : decodeNat w.port w.toNat = .ok (decode w) := by
  simp only [decodeNat, portWord_toNat]

theorem decodeNat_tooWide {p : Port} {n : Nat} (h : 2 ^ p.width ≤ n) :
    decodeNat p n = .error (.wordTooWide p) := by
  simp only [decodeNat, portWord, if_neg (Nat.not_lt.mpr h)]

/-- Every number within a port's width is a word of the port. -/
theorem exists_portWord {p : Port} {n : Nat} (h : n < 2 ^ p.width) :
    ∃ w : PortWord, w.port = p ∧ w.toNat = n := by
  cases p
  case enc => exact ⟨.enc (.ofNat 10 n), rfl, Nat.mod_eq_of_lt h⟩
  case dec => exact ⟨.dec (.ofNat 9 n), rfl, Nat.mod_eq_of_lt h⟩
  case cks => exact ⟨.cks (.ofNat 34 n), rfl, Nat.mod_eq_of_lt h⟩
  case rsq => exact ⟨.rsq (.ofNat 1 n), rfl, Nat.mod_eq_of_lt h⟩

/-- Settles O1: `decode` and `encode` undo each other, and the numbers within a port's width are
exactly its words. -/
theorem decodeAndEncodeAgree : Obligations.DecodeAndEncodeAgree := by
  refine ⟨fun i _ => ⟨?_, encode_port i, decode_encode i⟩, encode_decode,
    fun p n => ⟨decodeNat_tooWide, fun h => ?_⟩⟩
  · rw [← encode_port, decodeNat_toNat, decode_encode]
  · obtain ⟨w, rfl, rfl⟩ := exists_portWord h
    exact ⟨decode w, decodeNat_toNat w, Machine.decode_port w, by rw [encode_decode]⟩

/-- Settles O3: twelve closed words. -/
theorem writtenWordsDecode : Obligations.WrittenWordsDecode := by
  unfold Obligations.WrittenWordsDecode
  decide

/-! ### The opcode table (R62, R64, R66, R67, R69) -/

/-- The mask of the leading field reads that field and nothing of the data below it. -/
theorem append_toNat_and_mask {k n : Nat} (op : BitVec k) (data : BitVec n) :
    (op ++ data).toNat &&& (2 ^ k - 1) <<< n = op.toNat <<< n := by
  apply Nat.eq_of_testBit_eq
  intro j
  by_cases hj : n ≤ j
  case neg => simp [Nat.testBit_shiftLeft, hj]
  case pos =>
    have hData : data.toNat.testBit j = false :=
      Nat.testBit_lt_two_pow (data.isLt.trans_le (Nat.pow_le_pow_right two_pos hj))
    have hOp (h : op.toNat.testBit (j - n) = true) : j - n < k :=
      BitVec.lt_of_getLsbD h
    simpa [Nat.testBit_shiftLeft, hj, hData] using hOp

theorem enc10Word_masked (op : BitVec 2) (data : Byte) :
    (enc10Word op data).toNat &&& 0x300 = op.toNat <<< 8 := append_toNat_and_mask op data

theorem dec9Word_masked (kind : BitVec 1) (data : Byte) :
    (dec9Word kind data).toNat &&& 0x100 = kind.toNat <<< 8 := append_toNat_and_mask kind data

theorem cks34Word_masked (op : BitVec 2) (data : Word32) :
    (cks34Word op data).toNat &&& 0x300000000 = op.toNat <<< 32 := append_toNat_and_mask op data

/-- The encoding of an instruction hits the instruction's row and no other. -/
theorem opcodeTable_filter_encode (i : Instr) :
    (opcodeTable.filter (fun r => r.hits (encode i))).map (fun r => r.mnemonic) = [mnemonic i] := by
  simp only [opcodeTable, OpcodeRow.hits]
  cases i
  case encByte | encBegin | encEnd | encReserved =>
    simp [encode, mnemonic, PortWord.port, PortWord.toNat, enc10Word_masked]
  case decByte | decEnd =>
    simp [encode, mnemonic, PortWord.port, PortWord.toNat, dec9Word_masked]
  case cksWord | cksInit | cksInitm | cksReserved =>
    simp [encode, mnemonic, PortWord.port, PortWord.toNat, cks34Word_masked]
  case rsqEnter => simp [encode, mnemonic, PortWord.port]

/-- Settles O2: a word is the encoding of the instruction it decodes to. -/
theorem decodingFollowsOpcodeTable : Obligations.DecodingFollowsOpcodeTable := by
  intro w
  have h := opcodeTable_filter_encode (decode w)
  rwa [encode_decode] at h

end Sys2Proof

namespace Sys2Proof.Machine

/-! ### The assembler (R70, R71) -/

theorem assemble_of_wellFormed {l : AsmLine} (h : l.wellFormed = true) :
    assemble l = .ok (lineCommands l) := if_pos h

theorem assemble_of_not_wellFormed {l : AsmLine} (h : l.wellFormed = false) :
    assemble l = .error .operandOutOfRange := by
  simp [assemble, h]

/-- A line with one command assembles to the word that encodes the command. -/
theorem assemble_eq_decode {l : AsmLine} {i : Instr} {w : PortWord} (hl : l.wellFormed = true)
    (hi : lineCommands l = [i]) (hw : encode i = w) : assemble l = .ok [decode w] := by
  rw [assemble_of_wellFormed hl, hi, decode_eq_of_encode hw]

/-- A word's number is its leading field's, shifted above the data, and the data's. -/
theorem append_ofNat {k m n : Nat} (op : BitVec k) (h : n < 2 ^ m) :
    op ++ BitVec.ofNat m n = BitVec.ofNat (k + m) (op.toNat <<< m + n) := by
  have hWord : (op ++ BitVec.ofNat m n).toNat = op.toNat <<< m + n := by
    rw [BitVec.toNat_append, BitVec.toNat_ofNat, Nat.mod_eq_of_lt h,
      Nat.shiftLeft_add_eq_or_of_lt h]
  rw [← hWord, BitVec.ofNat_toNat, BitVec.setWidth_eq]

theorem encode_encByte_ofNat {n : Nat} (h : n < 2 ^ 8) :
    encode (.encByte (.ofNat 8 n)) = .enc (.ofNat 10 n) := by
  rw [encode, enc10Word, append_ofNat _ h]; simp

theorem encode_decByte_ofNat {n : Nat} (h : n < 2 ^ 8) :
    encode (.decByte (.ofNat 8 n)) = .dec (.ofNat 9 n) := by
  rw [encode, dec9Word, append_ofNat _ h]; simp

theorem encode_cksWord_ofNat {n : Nat} (h : n < 2 ^ 32) :
    encode (.cksWord (.ofNat 32 n)) = .cks (.ofNat 34 n) := by
  rw [encode, cks34Word, append_ofNat _ h]; simp

theorem encode_cksInit_ofNat {n : Nat} (h : n < 2 ^ 32) :
    encode (.cksInit (.ofNat 32 n)) = .cks (.ofNat 34 (0x100000000 + n)) := by
  rw [encode, cks34Word, append_ofNat _ h]; rfl

/-- `RSQ.ENTER` has the two words of its two operands. -/
theorem assemble_rsqEnter {n : Nat} (h : n < 2) :
    assemble (.rsqEnter n) = .ok [decode (.rsq (.ofNat 1 n))] := by
  obtain rfl | rfl : n = 0 ∨ n = 1 := by omega
  · exact assemble_eq_decode rfl rfl rfl
  · exact assemble_eq_decode rfl rfl rfl

/-- Settles O5: a line in range assembles to the command that its table word encodes, and a line out
of range is not well formed. -/
theorem assemblerWritesTableWords : Obligations.AssemblerWritesTableWords := by
  refine ⟨fun n h => ⟨?_, ?_⟩, fun n h => ⟨?_, ?_⟩, fun n h => assemble_rsqEnter h,
    assemble_eq_decode rfl rfl rfl, assemble_eq_decode rfl rfl rfl, assemble_eq_decode rfl rfl rfl,
    assemble_eq_decode rfl rfl rfl, fun n h => ⟨?_, ?_⟩, fun n h => ⟨?_, ?_⟩, fun n h => ?_⟩
  · exact assemble_eq_decode (decide_eq_true h) rfl (encode_encByte_ofNat h)
  · exact assemble_eq_decode (decide_eq_true h) rfl (encode_decByte_ofNat h)
  · exact assemble_eq_decode (decide_eq_true h) rfl (encode_cksWord_ofNat h)
  · exact assemble_eq_decode (decide_eq_true h) rfl (encode_cksInit_ofNat h)
  all_goals exact assemble_of_not_wellFormed (decide_eq_false (Nat.not_lt.mpr h))

/-- The numbers of a list of bytes or words, read back. -/
theorem map_ofNat_map_toNat {n : Nat} (xs : List (BitVec n)) :
    (xs.map BitVec.toNat).map (BitVec.ofNat n) = xs := by
  simp [Function.comp_def]

theorem byteFits_toNat (b : Byte) : byteFits b.toNat = true := decide_eq_true b.isLt

theorem all_byteFits_toNat (bs : List Byte) : (bs.map BitVec.toNat).all byteFits = true := by
  simp [byteFits_toNat]

theorem wordFits_toNat (w : Word32) : wordFits w.toNat = true := decide_eq_true w.isLt

theorem all_wordFits_toNat (ws : List Word32) : (ws.map BitVec.toNat).all wordFits = true := by
  simp [wordFits_toNat]

/-- Settles O6: operands that are bytes or words are in range, and the assembler reads them back. -/
theorem pseudoInstructionsExpand : Obligations.PseudoInstructionsExpand := by
  refine ⟨fun p => ?frame, fun d => ?delivery, fun seed ws => ?sum, fun ws => ?summ,
    assemble_of_wellFormed rfl, assemble_of_wellFormed rfl⟩
  case frame =>
    have hFits : (AsmLine.encFrame (p.map BitVec.toNat)).wellFormed = true := all_byteFits_toNat p
    rw [assemble_of_wellFormed hFits, lineCommands, map_ofNat_map_toNat, frameCommands]
  case delivery =>
    have hFits : (AsmLine.decDelivery (d.map BitVec.toNat)).wellFormed = true := all_byteFits_toNat d
    rw [assemble_of_wellFormed hFits, lineCommands, map_ofNat_map_toNat, deliveryCommands]
  case sum =>
    have hFits : (AsmLine.cksSum seed.toNat (ws.map BitVec.toNat)).wellFormed = true := by
      rw [AsmLine.wellFormed, wordFits_toNat, all_wordFits_toNat]; rfl
    rw [assemble_of_wellFormed hFits, lineCommands, map_ofNat_map_toNat, BitVec.ofNat_toNat,
      BitVec.setWidth_eq, sumCommands]
  case summ =>
    have hFits : (AsmLine.cksSumm (ws.map BitVec.toNat)).wellFormed = true := all_wordFits_toNat ws
    rw [assemble_of_wellFormed hFits, lineCommands, map_ofNat_map_toNat, summCommands]

/-! ### The ignored `DATA` (R63) -/

/-- What ENC's accepted command makes of it, if there is one. -/
theorem acceptedEnc_foldl (s : State) (e : Enc) :
    (acceptedEnc s).foldl (fun e i => onEnc i e) e =
      if s.now.encCmdValid && encCmdReady s then onEnc (decode (.enc s.now.encCmd)) e else e := by
  unfold acceptedEnc
  split <;> rfl

/-- The state in a cycle in which the environment drives `i`, but `w` as ENC's command word. -/
def encCmdDriven (s : State) (i : Inputs) (later : List Inputs) (w : BitVec 10) : State :=
  { s with inputs := { i with encCmd := w } :: later }

/-- Two command words that mean the same to ENC make the same step. -/
theorem step_encCmd_congr {w w' : BitVec 10}
    (h : ∀ e, onEnc (decode (.enc w)) e = onEnc (decode (.enc w')) e)
    (s : State) (i : Inputs) (later : List Inputs) :
    step (encCmdDriven s i later w) = step (encCmdDriven s i later w') := by
  cases hr : i.rst
  case true =>
    have hRst (v : BitVec 10) : (encCmdDriven s i later v).now.rst = true := hr
    rw [step_reset (hRst w), step_reset (hRst w')]
    rfl
  case false =>
    have hRst (v : BitVec 10) : (encCmdDriven s i later v).now.rst = false := hr
    have hEnc (e : Enc) : (acceptedEnc (encCmdDriven s i later w)).foldl (fun e i => onEnc i e) e =
        (acceptedEnc (encCmdDriven s i later w')).foldl (fun e i => onEnc i e) e := by
      rw [acceptedEnc_foldl, acceptedEnc_foldl]
      exact if_congr Iff.rfl (h e) rfl
    rw [step_running (hRst w), step_running (hRst w')]
    simp only [hEnc, quietEdge_enc, quietEdge_dec, quietEdge_txOut, quietEdge_doutOut]
    rfl

theorem enc10Word_begin (d : Byte) : 0x100#10 ||| d.setWidth 10 = enc10Word 0b01#2 d := by
  revert d; decide

theorem enc10Word_end (d : Byte) : 0x200#10 ||| d.setWidth 10 = enc10Word 0b10#2 d := by
  revert d; decide

/-- Settles O4: to ENC both words mean the same command, whose `DATA` it does not use. -/
theorem dataOfBeginAndEndIgnored : Obligations.DataOfBeginAndEndIgnored := by
  intro s i later d
  have hBegin : decode (.enc (0x100#10 ||| d.setWidth 10)) = .encBegin d :=
    decode_eq_of_encode (congrArg PortWord.enc (enc10Word_begin d).symm)
  have hEnd : decode (.enc (0x200#10 ||| d.setWidth 10)) = .encEnd d :=
    decode_eq_of_encode (congrArg PortWord.enc (enc10Word_end d).symm)
  exact ⟨step_encCmd_congr (fun e => by rw [hBegin]; rfl) s i later,
    step_encCmd_congr (fun e => by rw [hEnd]; rfl) s i later⟩

/-! ### Ready and waiting (R60, R84, R90, R91, R111, R112, R150) -/

/-- ENC is ready when the edge leaves its buffer empty (R90, R91). -/
theorem encCmdReady_iff (s : State) :
    encCmdReady s = true ↔ s.now.rst = false ∧ (quietEdge s).enc.buf = [] := by
  rw [quietEdge_enc]
  rcases hb : s.enc.buf with _ | ⟨b, _ | ⟨c, rest⟩⟩ <;> cases hx : s.now.txReady <;>
    simp [encCmdReady, hb, hx]

/-- DEC is ready when the edge leaves its output register empty (R111, R112). -/
theorem rxReady_iff (s : State) :
    rxReady s = true ↔ s.now.rst = false ∧ (quietEdge s).dec.obuf = none := by
  rw [quietEdge_dec]
  cases hx : s.now.doutReady <;> simp [rxReady, hx]

theorem onEnc_busy {e : Enc} (h : e.buf ≠ []) (i : Instr) : onEnc i e = e := by
  cases i
  case encByte | encBegin | encEnd | encReserved => exact encTake_busy h
  all_goals rfl

theorem onDec_busy {d : Dec} (h : d.obuf ≠ none) (i : Instr) : onDec i d = d := by
  cases i
  case decByte | decEnd => exact decTake_busy h
  all_goals rfl

theorem onRsq_busy {r : Rsq} (h : r.phase ≠ .idle) (p : Params) (isOpen : Bool) (i : Instr) :
    onRsq p isOpen i r = r := by
  cases i
  case rsqEnter => exact rsqTake_busy h
  all_goals rfl

/-- An instruction that leaves every unit as it is answers the same state. -/
theorem exec_eq_self {i : Instr} {s : State} (hEnc : onEnc i s.enc = s.enc)
    (hDec : onDec i s.dec = s.dec) (hCks : onCks s.cfg i s.cks = s.cks)
    (hRsq : onRsq s.cfg s.now.tpIsOpen i s.rsq = s.rsq) : exec i s = .next s := by
  rw [exec_eq, hEnc, hDec, hCks, hRsq]

/-- Settles O11: the readies, and for each unit that can be busy an instruction of its port, which
leaves that unit as it is because it is busy and the others because they are not its own. -/
theorem wordWaitsUntilUnitIsFree : Obligations.WordWaitsUntilUnitIsFree := by
  intro i s
  refine ⟨encCmdReady_iff s, rxReady_iff s, fun hp hb => ?enc,
    fun hp hb => ?dec, fun hp hb => ?rsq⟩
  case enc =>
    exact exec_eq_self (onEnc_busy hb i) (onDec_other (by simp [hp]) _)
      (onCks_other (by simp [hp]) _ _) (onRsq_other (by simp [hp]) _ _ _)
  case dec =>
    exact exec_eq_self (onEnc_other (by simp [hp]) _) (onDec_busy hb i)
      (onCks_other (by simp [hp]) _ _) (onRsq_other (by simp [hp]) _ _ _)
  case rsq =>
    exact exec_eq_self (onEnc_other (by simp [hp]) _) (onDec_other (by simp [hp]) _)
      (onCks_other (by simp [hp]) _ _) (onRsq_busy hb _ _ i)

/-! ### A placed word (log entry 8) -/

/-- In the cycle in which a word is placed nothing else is offered, and there is no reset. -/
theorem quietCycle_quiet (s : State) :
    (quietCycle s).rst = false ∧ (quietCycle s).encCmdValid = false ∧
    (quietCycle s).rxValid = false ∧ (quietCycle s).cksCmdValid = false ∧
    (quietCycle s).rsqCmdValid = false := by
  unfold quietCycle
  split <;> exact ⟨rfl, rfl, rfl, rfl, rfl⟩

theorem offering_now (s : State) (w : PortWord) :
    (s.offering w).now = offerIn (quietCycle s) w := rfl

theorem offering_noReset (s : State) (w : PortWord) : (s.offering w).now.rst = false := by
  obtain ⟨hr, -⟩ := quietCycle_quiet s
  cases w <;> exact hr

theorem encCmdReady_offering (s : State) (w : BitVec 10) :
    encCmdReady (s.offering (.enc w)) = true := by
  have hGone : (s.enc.buf.take 1).tail = [] := by cases s.enc.buf <;> rfl
  rw [encCmdReady_iff, quietEdge_enc]
  exact ⟨offering_noReset s (.enc w), hGone⟩

theorem rxReady_offering (s : State) (w : BitVec 9) : rxReady (s.offering (.dec w)) = true := by
  rw [rxReady_iff, quietEdge_dec]
  exact ⟨offering_noReset s (.dec w), rfl⟩

theorem rsqCmdReady_offering (s : State) (w : BitVec 1) :
    rsqCmdReady (s.offering (.rsq w)) = true := by
  rw [rsqCmdReady, offering_noReset]
  rfl

/-- The placed word is accepted, and no other is valid. -/
theorem accepted_offering (s : State) (w : PortWord) : accepted (s.offering w) = [decode w] := by
  obtain ⟨-, hEnc, hDec, hCks, hRsq⟩ := quietCycle_quiet s
  simp only [accepted, acceptedEnc, acceptedDec, acceptedCks, acceptedRsq]
  cases w
  case enc w => simp [encCmdReady_offering, offering_now, offerIn, hDec, hCks, hRsq]
  case dec w => simp [rxReady_offering, offering_now, offerIn, hEnc, hCks, hRsq]
  case cks w =>
    have hReady := cksCmdReady_of_noReset (offering_noReset s (.cks w))
    simp [hReady, offering_now, offerIn, hEnc, hDec, hRsq]
  case rsq w => simp [rsqCmdReady_offering, offering_now, offerIn, hEnc, hDec, hCks]

/-- A number that the table reads as an instruction is placed as the word of that instruction. -/
theorem withFetchWord_eq_offering {s : State} {nbits w : Nat} {i : Instr}
    (h : decodeTableWord nbits w = some i) :
    ∃ pw, s.withFetchWord nbits w = s.offering pw ∧ decode pw = i := by
  obtain ⟨pw, hpw, hi⟩ := Option.map_eq_some_iff.mp h
  exact ⟨pw, by simp only [State.withFetchWord, hpw], hi⟩

/-- Settles O10: the placed word is the only one offered, and its unit can take it. -/
theorem placedWordRunsNext : Obligations.PlacedWordRunsNext := by
  intro s nbits w i h
  obtain ⟨pw, hPlaced, rfl⟩ := withFetchWord_eq_offering (s := s) h
  have hAcc := accepted_offering s pw
  obtain ⟨t, ht⟩ := exec_next (decode pw) (quietEdge (s.offering pw))
  rw [hPlaced]
  refine ⟨hAcc, t, ht, step_of_execAll (offering_noReset s pw) ?_⟩
  rw [hAcc, execAll_singleton, ht]

/-! ### An offered output is held (R23, R26, R60) -/

/-- A byte that `tx` does not take keeps ENC from taking a command, and stays (R90, R91). -/
theorem step_enc_untaken {s t : State} (hr : s.now.rst = false) (h : step s = .next t)
    (hBuf : s.enc.buf ≠ []) (hTake : s.now.txReady = false) : t.enc = s.enc := by
  have hWaits : encCmdReady s = false := by simp [encCmdReady, hBuf, hTake]
  obtain ⟨hEnc, -⟩ := step_enc_quiet hr h (offered_waits (.inr hWaits))
  rw [hEnc, hTake]
  rfl

/-- An item that `dout` does not take keeps DEC from taking a word, and stays (R111, R112). -/
theorem step_dec_untaken {s t : State} (hr : s.now.rst = false) (h : step s = .next t)
    (hFull : s.dec.obuf ≠ none) (hTake : s.now.doutReady = false) : t.dec = s.dec := by
  have hWaits : rxReady s = false := by simp [rxReady, Option.isSome_iff_ne_none, hFull, hTake]
  obtain ⟨hDec, -⟩ := step_dec_quiet hr h (offered_waits (.inr hWaits))
  rw [hDec, hTake]
  rfl

theorem txData_of_buf {s : State} {b : Byte} {rest : List Byte} (h : s.enc.buf = b :: rest) :
    txData s = b := by
  simp only [txData, h]

theorem doutWord_of_obuf {s : State} {x : DoutItem} (h : s.dec.obuf = some x) : doutWord s = x := by
  simp only [doutWord, h]

/-- Settles O27: the untaken byte is still the head of the buffer, and the untaken item still in the
output register. -/
theorem offeredOutputIsHeld : Obligations.OfferedOutputIsHeld := by
  intro s t hr h
  refine ⟨fun hValid hTake => ?tx, fun hValid hTake => ?dout⟩
  case tx =>
    obtain ⟨b, rest, hBuf⟩ : ∃ b rest, s.enc.buf = b :: rest :=
      List.exists_cons_of_ne_nil (by simpa [txValid] using hValid)
    have hKept := step_enc_untaken hr h (by simp [hBuf]) hTake
    have hBuf' : t.enc.buf = b :: rest := by rw [hKept, hBuf]
    exact ⟨by simp [txValid, hBuf'], by rw [txData_of_buf hBuf', txData_of_buf hBuf]⟩
  case dout =>
    obtain ⟨x, hItem⟩ : ∃ x, s.dec.obuf = some x := Option.isSome_iff_exists.mp hValid
    have hKept := step_dec_untaken hr h (by simp [hItem]) hTake
    have hItem' : t.dec.obuf = some x := by rw [hKept, hItem]
    exact ⟨by simp [doutValid, hItem'], by rw [doutWord_of_obuf hItem', doutWord_of_obuf hItem]⟩

end Sys2Proof.Machine
end

/-! PROOFS of the family 40_slip_encoder: the commands of ENC one by one, its ports at an edge, and
what whole frames put on the wire (R80 to R92). -/

section
namespace Sys2Proof.Machine

/-! ### The escape map (R68) -/

/-- The wire form of a byte: an escape pair, or the byte itself, then no special byte (R68). -/
theorem escapeByte_cases (b : Byte) :
    (∃ x, escapeByte b = [slipEsc, x] ∧ (x = slipEscDelim ∨ x = slipEscEsc)) ∨
    (escapeByte b = [b] ∧ b ≠ slipDelim ∧ b ≠ slipEsc) := by
  unfold escapeByte
  split
  next => exact .inl ⟨_, rfl, .inl rfl⟩
  next hDelim =>
    split
    next => exact .inl ⟨_, rfl, .inr rfl⟩
    next hEsc => exact .inr ⟨rfl, hDelim, hEsc⟩

theorem escapeByte_plain {b : Byte} (hDelim : b ≠ slipDelim) (hEsc : b ≠ slipEsc) :
    escapeByte b = [b] := by
  rw [escapeByte, if_neg hDelim, if_neg hEsc]

theorem escapeByte_ne_nil (b : Byte) : escapeByte b ≠ [] := by
  rcases escapeByte_cases b with ⟨x, hb, -⟩ | ⟨hb, -⟩ <;> simp [hb]

theorem slipDelim_notMem_escapeByte (b : Byte) : slipDelim ∉ escapeByte b := by
  rcases escapeByte_cases b with ⟨x, hb, rfl | rfl⟩ | ⟨hb, hDelim, -⟩
  · rw [hb]; decide
  · rw [hb]; decide
  · rw [hb, List.mem_singleton]; exact hDelim.symm

/-! ### The commands one by one (R81 to R85) -/

/-- An instruction of ENC's port changes ENC alone (R56). -/
theorem exec_of_encPort {i : Instr} (h : i.port = .enc) (s : State) :
    exec i s = .next { s with enc := onEnc i s.enc } := by
  rw [exec_eq, onDec_other (by simp [h]), onCks_other (by simp [h]), onRsq_other (by simp [h])]

/-- The frame's first command opens it with a delimiter (R81). -/
theorem onEnc_encBegin_outside {e : Enc} (hBuf : e.buf = []) (hFrame : e.inFrame = false)
    (d : Byte) : onEnc (.encBegin d) e = { e with buf := [slipDelim], inFrame := true } := by
  simp [onEnc, encTake_free hBuf, encBegin, encSend, hFrame]

/-- In a frame a payload byte loads its wire form (R82). -/
theorem onEnc_encByte_inside {e : Enc} (hBuf : e.buf = []) (hFrame : e.inFrame = true) (b : Byte) :
    onEnc (.encByte b) e = { e with buf := escapeByte b } := by
  simp [onEnc, encTake_free hBuf, encByte_inFrame hFrame, encSend]

/-- The frame's last command closes it with a delimiter (R83). -/
theorem onEnc_encEnd_inside {e : Enc} (hBuf : e.buf = []) (hFrame : e.inFrame = true) (d : Byte) :
    onEnc (.encEnd d) e = { e with buf := [slipDelim], inFrame := false } := by
  simp [onEnc, encTake_free hBuf, encEnd, encSend, hFrame]

theorem enc10Word_byte (b : Byte) : 0x000#10 ||| b.setWidth 10 = enc10Word 0b00#2 b := by
  revert b; decide

theorem enc10Word_reserved (d : Byte) : 0x300#10 ||| d.setWidth 10 = enc10Word 0b11#2 d := by
  revert d; decide

/-- The commands that raise `SequenceError` (R84). -/
def outOfSequence (i : Instr) (inFrame : Bool) : Prop :=
  ∃ d, (i = .encBegin d ∧ inFrame = true) ∨
    ((i = .encByte d ∨ i = .encEnd d) ∧ inFrame = false)

theorem onEnc_outOfSequence {i : Instr} {e : Enc} (hBuf : e.buf = [])
    (h : outOfSequence i e.inFrame) : onEnc i e = encRaiseSequence e := by
  obtain ⟨d, ⟨rfl, hFrame⟩ | ⟨rfl | rfl, hFrame⟩⟩ := h
  · simp [onEnc, encTake_free hBuf, encBegin, hFrame]
  · simp [onEnc, encTake_free hBuf, encByte, hFrame]
  · simp [onEnc, encTake_free hBuf, encEnd, hFrame]

theorem outputs_inFrame (t : State) : (outputs t).encStatus.getLsbD 0 = t.enc.inFrame :=
  (encStatus_bits t.enc).1

theorem outputs_busy {t : State} (h : t.enc.buf ≠ []) :
    (outputs t).encStatus.getLsbD 1 = true := by
  obtain ⟨-, hBusy, -⟩ := encStatus_bits t.enc
  exact hBusy.mpr h

theorem outputs_seqerr (t : State) : (outputs t).encStatus.getLsbD 2 = t.enc.seqerr := by
  obtain ⟨-, -, hSeq, -⟩ := encStatus_bits t.enc
  exact hSeq

theorem outOfSequence_port {i : Instr} {f : Bool} (h : outOfSequence i f) : i.port = .enc := by
  obtain ⟨d, ⟨rfl, -⟩ | ⟨rfl | rfl, -⟩⟩ := h <;> rfl

/-- A command out of sequence sets `SEQERR` and nothing else (R84). -/
theorem exec_outOfSequence {i : Instr} {s t : State} (h : exec i s = .next t)
    (hBuf : s.enc.buf = []) (hSeq : outOfSequence i s.enc.inFrame) :
    t = { s with enc := { s.enc with seqerr := true } } ∧
    (outputs t).encStatus.getLsbD 2 = true := by
  rw [exec_of_encPort (outOfSequence_port hSeq), onEnc_outOfSequence hBuf hSeq] at h
  cases h
  exact ⟨rfl, outputs_seqerr _⟩

/-- Settles O25: `exec_outOfSequence` gives the whole next state. -/
theorem sequenceErrorDiscardsCommand : Obligations.SequenceErrorDiscardsCommand := by
  intro s d i hBuf hSeq
  obtain ⟨t, ht⟩ := exec_next i s
  obtain ⟨rfl, -⟩ := exec_outOfSequence ht hBuf ⟨d, hSeq⟩
  exact ⟨_, ht, rfl, rfl, hBuf, rfl, rfl⟩

/-- Settles O21, by whether a frame is open. -/
theorem encBeginOpensFrame : Obligations.EncBeginOpensFrame := by
  intro s d hBuf
  have hExec := exec_of_encPort (i := .encBegin d) rfl s
  refine ⟨decode_eq_of_encode (congrArg PortWord.enc (enc10Word_begin d).symm), _, hExec,
    fun hFrame => ?opens, fun hFrame => ?fault⟩
  case opens =>
    rw [onEnc_encBegin_outside hBuf hFrame]
    exact ⟨rfl, outputs_inFrame _, outputs_busy (List.cons_ne_nil _ _)⟩
  case fault => exact exec_outOfSequence hExec hBuf ⟨d, .inl ⟨rfl, hFrame⟩⟩

/-- Settles O22, by whether a frame is open and, in a frame, by the byte. -/
theorem encByteEscapes : Obligations.EncByteEscapes := by
  intro s b hBuf
  have hExec := exec_of_encPort (i := .encByte b) rfl s
  refine ⟨decode_eq_of_encode (congrArg PortWord.enc (enc10Word_byte b).symm), _, hExec,
    fun hFrame => ?sends, fun hFrame => ?fault⟩
  case sends =>
    rw [onEnc_encByte_inside hBuf hFrame]
    refine ⟨?delim, ?esc, fun hDelim hEsc => ?plain, outputs_busy (escapeByte_ne_nil b)⟩
    case delim => rintro rfl; rfl
    case esc => rintro rfl; rfl
    case plain => rw [escapeByte_plain hDelim hEsc]
  case fault => exact exec_outOfSequence hExec hBuf ⟨b, .inr ⟨.inl rfl, hFrame⟩⟩

/-- Settles O23, by whether a frame is open. -/
theorem encEndClosesFrame : Obligations.EncEndClosesFrame := by
  intro s d hBuf
  have hExec := exec_of_encPort (i := .encEnd d) rfl s
  refine ⟨decode_eq_of_encode (congrArg PortWord.enc (enc10Word_end d).symm), _, hExec,
    fun hFrame => ?closes, fun hFrame => ?fault⟩
  case closes =>
    rw [onEnc_encEnd_inside hBuf hFrame]
    exact ⟨rfl, outputs_inFrame _, outputs_busy (List.cons_ne_nil _ _)⟩
  case fault => exact exec_outOfSequence hExec hBuf ⟨d, .inr ⟨.inr rfl, hFrame⟩⟩

/-- Settles O24: the command is taken, and its effect does not look at `in_frame`. -/
theorem encReservedSetsOnlyIllop : Obligations.EncReservedSetsOnlyIllop := by
  intro s d hBuf
  have hEffect : onEnc (.encReserved d) s.enc = encRaiseIllegal s.enc := encTake_free hBuf
  refine ⟨decode_eq_of_encode (congrArg PortWord.enc (enc10Word_reserved d).symm), _,
    exec_of_encPort rfl s, by rw [hEffect, encRaiseIllegal], ?_⟩
  simp [State.faulted, hEffect, encRaiseIllegal]

/-! ### Frames on the wire (R80, R86) -/

/-- In a frame the payload's commands send its bytes in wire form, and change nothing of ENC but its
buffer. -/
theorem encFeed_payload (p : List Byte) {e : Enc} (hFrame : e.inFrame = true) :
    encFeed (p.map .encByte) e = (p.flatMap escapeByte, { e with buf := [] }) := by
  induction p with
  | nil => rfl
  | cons b p ih =>
    have hSend := onEnc_encByte_inside (e := { e with buf := [] }) rfl hFrame b
    rw [List.map_cons, encFeed, hSend, encFeed_buf, encFeed_buf, ih, List.flatMap_cons]

/-- Out of a frame the commands of `ENC.FRAME p` send `encode(p)`, and change nothing of ENC but its
buffer. -/
theorem encFeed_frameCommands (p : List Byte) {e : Enc} (hFrame : e.inFrame = false) :
    encFeed (frameCommands p) e = (slipEncode p, { e with buf := [] }) := by
  have hOpen := onEnc_encBegin_outside (e := { e with buf := [] }) rfl hFrame 0
  have hClose := onEnc_encEnd_inside (e := { e with buf := [], inFrame := true }) rfl rfl 0
  rw [frameCommands, List.cons_append, encFeed, hOpen, encFeed_append, encFeed_payload p rfl,
    encFeed, hClose]
  simp [encFeed, slipEncode, hFrame]

/-- Frames back to back. -/
theorem encFeed_frames (ps : List (List Byte)) {e : Enc} (hFrame : e.inFrame = false) :
    encFeed (ps.flatMap frameCommands) e = (ps.flatMap slipEncode, { e with buf := [] }) := by
  induction ps with
  | nil => rfl
  | cons p ps ih =>
    rw [List.flatMap_cons, encFeed_append, encFeed_frameCommands p hFrame, encFeed_buf, ih,
      List.flatMap_cons]

/-- Settles O28: over a run ENC's wire and state are what its accepted commands make of them
(`run_encFeed`). -/
theorem framesSendTheirEncoding : Obligations.FramesSendTheirEncoding := by
  intro k s t ps hFrame hn hReach hAcc
  obtain ⟨hWire, hEnc⟩ := run_encFeed hn hReach
  rw [hAcc, encFeed_frames ps hFrame] at hWire hEnc
  simp only [Enc.mk.injEq, true_and] at hEnc
  obtain ⟨hFrame', hSeq, hIll⟩ := hEnc
  refine ⟨hWire, hFrame'.trans hFrame, hSeq, hIll, fun hSent => ?_⟩
  simpa only [State.wire, hSent, List.append_nil] using hWire

/-! ### The body and the length of a frame (R87, R88) -/

/-- In a payload's wire form each `ESC` is the first byte of an escape pair. -/
theorem esc_followed {p before after : List Byte}
    (h : p.flatMap escapeByte = before ++ slipEsc :: after) :
    ∃ x rest, after = x :: rest ∧ (x = slipEscDelim ∨ x = slipEscEsc) := by
  induction p generalizing before with
  | nil => simp at h
  | cons b p ih =>
    rw [List.flatMap_cons] at h
    rcases escapeByte_cases b with ⟨x, hb, hx⟩ | ⟨hb, -, hEsc⟩
    case inl =>
      have hNe : x ≠ slipEsc := by rcases hx with rfl | rfl <;> decide
      rw [hb] at h
      match before, h with
      | [], h => exact ⟨x, _, (List.cons.inj h).2.symm, hx⟩
      | [_], h => exact absurd (List.cons.inj (List.cons.inj h).2).1 hNe
      | _ :: _ :: _, h => exact ih (List.cons.inj (List.cons.inj h).2).2
    case inr =>
      rw [hb] at h
      match before, h with
      | [], h => exact absurd (List.cons.inj h).1 hEsc
      | _ :: _, h => exact ih (List.cons.inj h).2

/-- Settles O29: the body is the payload's bytes in wire form. -/
theorem frameBodyIsEscaped : Obligations.FrameBodyIsEscaped := by
  intro p
  refine ⟨p.flatMap escapeByte, rfl, fun hMem => ?_, fun before after h => esc_followed h⟩
  obtain ⟨b, -, hb⟩ := List.mem_flatMap.mp hMem
  exact slipDelim_notMem_escapeByte b hb

/-- The two bytes that are sent as escape pairs. -/
def isSpecial (b : Byte) : Bool := b == slipDelim || b == slipEsc

theorem escapeByte_length (b : Byte) :
    (escapeByte b).length = 1 + if isSpecial b then 1 else 0 := by
  unfold escapeByte isSpecial
  split
  next hDelim => simp [hDelim]
  next hDelim =>
    split
    next hEsc => simp [hEsc]
    next hEsc => simp [hDelim, hEsc]

theorem payload_length (p : List Byte) :
    (p.flatMap escapeByte).length = p.length + p.countP isSpecial := by
  induction p with
  | nil => rfl
  | cons b p ih =>
    rw [List.flatMap_cons, List.length_append, escapeByte_length, ih, List.length_cons,
      List.countP_cons]
    omega

/-- Settles O30: the payload's bytes in wire form, between two delimiters. -/
theorem frameLength : Obligations.FrameLength := by
  intro p
  have hLen : (slipEncode p).length = p.length + p.countP isSpecial + 2 := by
    rw [← payload_length, slipEncode]
    simp only [List.length_append, List.length_singleton]
    omega
  have hCount : p.countP isSpecial ≤ p.length := List.countP_le_length
  exact ⟨hLen, by omega⟩

/-! ### The ports at an edge (R90, R91) -/

theorem txValid_iff (s : State) : txValid s = true ↔ s.enc.buf ≠ [] := by
  simp [txValid]

/-- The tail of an empty buffer is that buffer, so what is left does not depend on `tx_valid`. -/
theorem ite_txValid_tail (s : State) :
    (if txValid s && s.now.txReady then s.enc.buf.tail else s.enc.buf) =
      if s.now.txReady then s.enc.buf.tail else s.enc.buf := by
  cases hb : s.enc.buf <;> simp [txValid, hb]

/-- The byte that leaves at an edge is `tx_data`. -/
theorem ite_txValid_txData (s : State) :
    (if txValid s && s.now.txReady then [txData s] else []) =
      if s.now.txReady then s.enc.buf.take 1 else [] := by
  cases hb : s.enc.buf with
  | nil => simp [txValid, hb]
  | cons b rest => simp [txValid, txData_of_buf hb, hb]

/-- Settles O26: the port signals by their definitions; at the edge the byte leaves, and a command
is accepted only if nothing is left (`step_enc_quiet`, `step_enc_command`). -/
theorem encPortEdge : Obligations.EncPortEdge := by
  intro s
  refine ⟨by simp [encCmdReady], by simp [acceptedEnc], ?waits, txValid_iff s,
    fun _ _ => txData_of_buf, fun hr => ?edge⟩
  case waits =>
    cases hv : s.now.encCmdValid <;> cases hReady : encCmdReady s <;> simp [acceptedEnc, hv, hReady]
  case edge =>
    obtain ⟨t, ht⟩ := step_next s
    obtain ⟨-, hOut⟩ := step_enc hr ht
    simp only [ite_txValid_tail, ite_txValid_txData]
    refine ⟨t, ht, hOut.trans (quietEdge_txOut s), fun ha => ?_, fun i ha => ?_⟩
    · obtain ⟨hEnc, -⟩ := step_enc_quiet hr ht ha
      exact hEnc
    · obtain ⟨hEnc, -⟩ := step_enc_command hr ht ha
      exact ⟨encReady_buf (acceptedEnc_ready ha), _, exec_eq i _, hEnc⟩

/-- Settles O9, field by field. -/
theorem edgeBeforeCommands : Obligations.EdgeBeforeCommands := fun s =>
  ⟨quietEdge_enc s, quietEdge_txOut s, quietEdge_dec s, quietEdge_doutOut s, quietEdge_cks s,
    quietEdge_cfg s, quietEdge_inputs s, quietEdge_cycle s⟩

/-! ### Progress, and its lack (R90, R191, R192) -/

/-- ENC's buffer never holds more than an escape pair (R23). -/
theorem encInv_buf_length_le {s : State} (h : encInv s) : s.enc.buf.length ≤ 2 := by
  obtain ⟨hBuf | ⟨c, hc⟩, -⟩ := encInv_iff.mp h
  · omega
  · exact hc ▸ escapeByte_length_le c

theorem encCmdReady_of_length_le_one {s : State} (hr : s.now.rst = false)
    (hTake : s.now.txReady = true) (hBuf : s.enc.buf.length ≤ 1) : encCmdReady s = true := by
  have hLen : s.enc.buf.length = 0 ∨ s.enc.buf.length = 1 := by omega
  simpa [encCmdReady, hr, hTake] using hLen

/-- Settles O32: if ENC is not ready, two bytes wait; one leaves at this edge, so that ENC is ready
for the held word in the next cycle. -/
theorem encAcceptsWithinTwoCycles : Obligations.EncAcceptsWithinTwoCycles := by
  intro s t hInv h hr hr' hHold hValid hTake hTake'
  cases hReady : encCmdReady s
  case true => exact .inl (offered_taken hValid hReady)
  case false =>
    obtain ⟨hHoldEnc, -⟩ := hHold
    obtain ⟨hValid', hCmd'⟩ := hHoldEnc hValid hReady
    obtain ⟨hEnc, -⟩ := step_enc_quiet hr h (offered_waits (.inr hReady))
    obtain ⟨hEncInv, -⟩ := hInv
    have hLen := encInv_buf_length_le hEncInv
    have hBuf' : t.enc.buf.length ≤ 1 := by
      rw [hEnc, hTake, if_pos rfl, List.length_tail]
      omega
    rw [← hCmd']
    exact .inr (offered_taken hValid' (encCmdReady_of_length_le_one hr' hTake' hBuf'))

/-- ENC with an untaken byte, at one edge: it accepts nothing, and it and its output sequence
stay. -/
theorem step_enc_stuck {s t : State} (hr : s.now.rst = false) (h : step s = .next t)
    (hBuf : s.enc.buf ≠ []) (hTake : s.now.txReady = false) :
    acceptedEnc s = [] ∧ t.enc = s.enc ∧ t.txOut = s.txOut := by
  have hWaits : encCmdReady s = false := by simp [encCmdReady, hBuf, hTake]
  obtain ⟨-, hOut⟩ := step_enc hr h
  refine ⟨offered_waits (.inr hWaits), step_enc_untaken hr h hBuf hTake, ?_⟩
  simp [hOut, quietEdge_txOut, hTake]

/-- DEC with an untaken item, at one edge: it accepts nothing, and it and its output sequence
stay. -/
theorem step_dec_stuck {s t : State} (hr : s.now.rst = false) (h : step s = .next t)
    (hFull : s.dec.obuf ≠ none) (hTake : s.now.doutReady = false) :
    acceptedDec s = [] ∧ t.dec = s.dec ∧ t.doutOut = s.doutOut := by
  have hWaits : rxReady s = false := by simp [rxReady, Option.isSome_iff_ne_none, hFull, hTake]
  obtain ⟨-, hOut⟩ := step_dec hr h
  refine ⟨offered_waits (.inr hWaits), step_dec_untaken hr h hFull hTake, ?_⟩
  simp [hOut, quietEdge_doutOut, hTake]

/-- Settles O33, by induction over the run: at each edge the untaken output keeps its unit as it is,
and so is untaken at the next. -/
theorem untakenOutputSticks : Obligations.UntakenOutputSticks := by
  intro k s t hn hReach
  induction k generalizing s with
  | zero =>
    rw [reaches_zero] at hReach
    subst hReach
    exact ⟨fun _ _ => ⟨rfl, rfl, rfl⟩, fun _ _ => ⟨rfl, rfl, rfl⟩⟩
  | succ k ih =>
    obtain ⟨u, hu, hk⟩ := reaches_succ.mp hReach
    obtain ⟨hr, hn'⟩ := (throughout_succ hu).mp hn
    obtain ⟨ihEnc, ihDec⟩ := ih u hn' hk
    rw [acceptedIn_succ hu, acceptedIn_succ hu]
    refine ⟨fun hBuf hTake => ?enc, fun hFull hTake => ?dec⟩
    case enc =>
      obtain ⟨hNow, hLater⟩ := (throughout_succ hu).mp hTake
      obtain ⟨hNone, hEnc, hOut⟩ := step_enc_stuck hr hu hBuf hNow
      rw [hNone, ← hEnc, ← hOut]
      exact ihEnc (hEnc ▸ hBuf) hLater
    case dec =>
      obtain ⟨hNow, hLater⟩ := (throughout_succ hu).mp hTake
      obtain ⟨hNone, hDec, hOut⟩ := step_dec_stuck hr hu hFull hNow
      rw [hNone, ← hDec, ← hOut]
      exact ihDec (hDec ▸ hFull) hLater

/-! ### Across the link (R86, R104, R108) -/

/-- In `BODY` the wire form of a byte comes out as the byte (R68, R102). -/
theorem decFeed_escapeByte (b : Byte) {d : Dec} (hPhase : d.phase = .body) :
    decFeed ((escapeByte b).map .decByte) d = ([doutByte b], { d with obuf := none }) := by
  obtain ⟨phase, obuf⟩ := d
  obtain rfl : phase = .body := hPhase
  unfold escapeByte
  split
  next hDelim => subst hDelim; rfl
  next hDelim =>
    split
    next hEsc => subst hEsc; rfl
    next hEsc => simp [decFeed, onDec, decTake, decByte, decEmit, hDelim, hEsc]

/-- In `BODY` a payload in wire form comes out as the payload, and DEC stays in `BODY`. -/
theorem decFeed_payload (p : List Byte) {d : Dec} (hPhase : d.phase = .body) :
    decFeed ((p.flatMap escapeByte).map .decByte) d =
      (p.map doutByte, { d with obuf := none }) := by
  induction p with
  | nil => rfl
  | cons b p ih =>
    rw [List.flatMap_cons, List.map_append, decFeed_append, decFeed_escapeByte b hPhase,
      decFeed_obuf, ih]
    rfl

/-- From `HEADER` the delivery of `encode(p)` comes out as the bytes of `p` and `OK`, and DEC is in
`HEADER` again. -/
theorem decFeed_delivery_slipEncode (p : List Byte) {d : Dec} (hPhase : d.phase = .header) :
    decFeed (deliveryCommands (slipEncode p)) d =
      (p.map doutByte ++ [doutResult .ok], { phase := .header, obuf := none }) := by
  have hOpen : onDec (.decByte slipDelim) { d with obuf := none } = ⟨.body, none⟩ := by
    simp [onDec, decTake, decByte, hPhase, decGoto]
  have hClose : decFeed [.decByte slipDelim, .decEnd 0] ⟨.body, none⟩ =
      ([doutResult .ok], ⟨.header, none⟩) := by decide
  have hCommands : deliveryCommands (slipEncode p) =
      .decByte slipDelim ::
        ((p.flatMap escapeByte).map .decByte ++ [.decByte slipDelim, .decEnd 0]) := by
    simp [deliveryCommands, slipEncode]
  rw [hCommands, decFeed, hOpen, decFeed_append, decFeed_payload p rfl, hClose]
  rfl

/-- Settles O41: what joins the wire is `encode(p)`, and DEC's part of a run is what the delivery of
it makes of DEC (`run_decFeed`). -/
theorem payloadSurvivesTheLink : Obligations.PayloadSurvivesTheLink := by
  intro k k' s t s' t' p w hFrame hn hReach hAcc hWire hPhase hn' hReach' hAcc'
  obtain ⟨hSent, -⟩ := run_encFeed hn hReach
  rw [hAcc, encFeed_frameCommands p hFrame, hWire] at hSent
  obtain rfl : w = slipEncode p := List.append_cancel_left hSent
  obtain ⟨hItems, hDec⟩ := run_decFeed hn' hReach'
  rw [hAcc', decFeed_delivery_slipEncode p hPhase] at hItems hDec
  exact ⟨by rw [hItems, List.append_assoc], congrArg Dec.phase hDec⟩

end Sys2Proof.Machine
end

/-! PROOFS of the family 41_slip_decoder: the words of DEC one by one, its ports at an edge, and
what whole deliveries bring out of it (R100 to R112). -/

section
namespace Sys2Proof.Machine

/-! ### The words one by one (R102, R103) -/

/-- An instruction of DEC's port changes DEC alone (R56). -/
theorem exec_of_decPort {i : Instr} (h : i.port = .dec) (s : State) :
    exec i s = .next { s with dec := onDec i s.dec } := by
  rw [exec_eq, onEnc_other (by simp [h]), onCks_other (by simp [h]), onRsq_other (by simp [h])]

theorem onDec_decByte_header {d : Dec} (hFree : d.obuf = none) (hPhase : d.phase = .header)
    (b : Byte) :
    onDec (.decByte b) d =
      if b = slipDelim then ⟨.body, none⟩ else ⟨.skip, some (doutResult .frameMissingHeader)⟩ := by
  simp [onDec, decTake_free hFree, decByte, hPhase, decGoto, decFinish, decEmit, hFree]

theorem onDec_decByte_body {d : Dec} (hFree : d.obuf = none) (hPhase : d.phase = .body)
    (b : Byte) :
    onDec (.decByte b) d =
      if b = slipDelim then ⟨.skip, some (doutResult .ok)⟩
      else if b = slipEsc then ⟨.escape, none⟩
      else ⟨.body, some (doutByte b)⟩ := by
  simp [onDec, decTake_free hFree, decByte, hPhase, decGoto, decFinish, decEmit, hFree]

theorem onDec_decByte_escape {d : Dec} (hFree : d.obuf = none) (hPhase : d.phase = .escape)
    (b : Byte) :
    onDec (.decByte b) d =
      if b = slipEscDelim then ⟨.body, some (doutByte slipDelim)⟩
      else if b = slipEscEsc then ⟨.body, some (doutByte slipEsc)⟩
      else ⟨.skip, some (doutResult .invalidEscapeSequence)⟩ := by
  simp [onDec, decTake_free hFree, decByte, hPhase, decGoto, decFinish, decEmit]

theorem onDec_decByte_skip {d : Dec} (hPhase : d.phase = .skip) (b : Byte) :
    onDec (.decByte b) d = d := by
  simp [onDec, decTake, decByte, hPhase]

theorem onDec_decEnd {d : Dec} (hFree : d.obuf = none) (data : Byte) :
    onDec (.decEnd data) d =
      ⟨.header,
       match d.phase with
       | .header => some (doutResult .frameMissingHeader)
       | .body => some (doutResult .unterminatedFrame)
       | .escape => some (doutResult .unterminatedFrame)
       | .skip => none⟩ := by
  cases hPhase : d.phase <;>
    simp [onDec, decTake_free hFree, decEnd, hPhase, decGoto, decEmit, hFree]

theorem dec9Word_byte (b : Byte) : 0x000#9 ||| b.setWidth 9 = dec9Word 0#1 b := by
  revert b; decide

theorem dec9Word_end (d : Byte) : 0x100#9 ||| d.setWidth 9 = dec9Word 1#1 d := by
  revert d; decide

theorem doutByte_eq_setWidth (b : Byte) : doutByte b = b.setWidth 9 := by
  revert b; decide

/-- Settles O34, row by row of R102's table. -/
theorem decByteByPhase : Obligations.DecByteByPhase := by
  intro s b hFree
  have becomes {d : Dec} (h : onDec (.decByte b) s.dec = d) :
      { s with dec := onDec (.decByte b) s.dec } = { s with dec := d } := by rw [h]
  refine ⟨decode_eq_of_encode (congrArg PortWord.dec (dec9Word_byte b).symm), _,
    exec_of_decPort rfl s, ?headerDelim, ?headerOther, ?bodyDelim, ?bodyEsc, ?bodyOther,
    ?escapeDelim, ?escapeEsc, ?escapeOther, fun hp => becomes (onDec_decByte_skip hp b),
    decStatus_phase _, decStatus_full _⟩
  case headerDelim =>
    exact fun hp hb => becomes ((onDec_decByte_header hFree hp b).trans (if_pos hb))
  case headerOther =>
    exact fun hp hb => becomes ((onDec_decByte_header hFree hp b).trans (if_neg hb))
  case bodyDelim =>
    exact fun hp hb => becomes ((onDec_decByte_body hFree hp b).trans (if_pos hb))
  case bodyEsc =>
    rintro hp rfl
    exact becomes (onDec_decByte_body hFree hp _)
  case bodyOther =>
    intro hp hDelim hEsc
    rw [← doutByte_eq_setWidth]
    exact becomes ((onDec_decByte_body hFree hp b).trans ((if_neg hDelim).trans (if_neg hEsc)))
  case escapeDelim =>
    exact fun hp hb => becomes ((onDec_decByte_escape hFree hp b).trans (if_pos hb))
  case escapeEsc =>
    rintro hp rfl
    exact becomes (onDec_decByte_escape hFree hp _)
  case escapeOther =>
    exact fun hp hDelim hEsc => becomes
      ((onDec_decByte_escape hFree hp b).trans ((if_neg hDelim).trans (if_neg hEsc)))

/-- Settles O35, by phase. -/
theorem decEndByPhase : Obligations.DecEndByPhase := by
  intro s data hFree
  have hEnd := onDec_decEnd hFree data
  refine ⟨decode_eq_of_encode (congrArg PortWord.dec (dec9Word_end data).symm), _,
    exec_of_decPort rfl s, fun hp => ?header, fun hp => ?unterminated, fun hp => ?skip, ?phase,
    decStatus_full _⟩
  case header => rw [hEnd, hp]; rfl
  case unterminated => rcases hp with hp | hp <;> (rw [hEnd, hp]; rfl)
  case skip => rw [hEnd, hp]
  case phase => exact (decStatus_phase _).trans (by rw [hEnd]; rfl)

/-! ### The ports at an edge (R110 to R112) -/

theorem doutValid_iff (s : State) : doutValid s = true ↔ s.dec.obuf ≠ none :=
  Option.isSome_iff_ne_none

/-- Taking from an empty register leaves it empty, so what is left does not depend on
`dout_valid`. -/
theorem ite_doutValid_none (s : State) :
    (if doutValid s && s.now.doutReady then none else s.dec.obuf) =
      if s.now.doutReady then none else s.dec.obuf := by
  cases hItem : s.dec.obuf <;> simp [doutValid, hItem]

/-- The item that leaves at an edge is `dout_word`. -/
theorem ite_doutValid_doutWord (s : State) :
    (if doutValid s && s.now.doutReady then [doutWord s] else []) =
      if s.now.doutReady then s.dec.obuf.toList else [] := by
  cases hItem : s.dec.obuf with
  | none => simp [doutValid, hItem]
  | some x => simp [doutValid, doutWord_of_obuf hItem, hItem]

/-- Settles O36: the port signals by their definitions; at the edge the item leaves, and a word is
accepted only if nothing is left (`step_dec_quiet`, `step_dec_command`). -/
theorem decPortEdge : Obligations.DecPortEdge := by
  intro s
  refine ⟨by simp [rxReady], by simp [acceptedDec], ?waits, doutValid_iff s,
    fun _ => doutWord_of_obuf, fun hr => ?edge⟩
  case waits =>
    cases hv : s.now.rxValid <;> cases hReady : rxReady s <;> simp [acceptedDec, hv, hReady]
  case edge =>
    obtain ⟨t, ht⟩ := step_next s
    obtain ⟨-, hOut⟩ := step_dec hr ht
    simp only [ite_doutValid_none, ite_doutValid_doutWord]
    refine ⟨t, ht, hOut.trans (quietEdge_doutOut s), fun ha => ?_, fun i ha => ?_⟩
    · obtain ⟨hDec, -⟩ := step_dec_quiet hr ht ha
      exact hDec
    · obtain ⟨hDec, -⟩ := step_dec_command hr ht ha
      exact ⟨rxReady_obuf (acceptedDec_ready ha), _, exec_eq i _, hDec⟩

/-! ### `decode` and its loop (R100) -/

/-- `decode` answers `out` when its loop returned `OK`, and the error otherwise. -/
theorem slipDecode_eq (d : List Byte) :
    slipDecode d = if (slipDecodeTrace d).2 = .ok then .ok (slipDecodeTrace d).1
      else .error (slipDecodeTrace d).2 := by
  unfold slipDecode
  rcases slipDecodeTrace d with ⟨out, _ | _ | _ | _⟩ <;> rfl

theorem slipDecodeTrace_delim (bs : List Byte) :
    slipDecodeTrace (slipDelim :: bs) = slipScan false [] bs := rfl

theorem slipDecodeTrace_other {b : Byte} (h : b ≠ slipDelim) (bs : List Byte) :
    slipDecodeTrace (b :: bs) = ([], .frameMissingHeader) := if_neg h

/-- Past the header `FrameMissingHeader` is out of the question. -/
theorem slipScan_ne_frameMissingHeader (escape : Bool) (out bs : List Byte) :
    (slipScan escape out bs).2 ≠ .frameMissingHeader := by
  induction escape, out, bs using slipScan.induct <;> simp_all [slipScan]

/-- A missing header is reported before anything is decoded. -/
theorem slipDecodeTrace_frameMissingHeader {d : List Byte}
    (h : (slipDecodeTrace d).2 = .frameMissingHeader) :
    slipDecodeTrace d = ([], .frameMissingHeader) := by
  cases d with
  | nil => rfl
  | cons b bs =>
    by_cases hb : b = slipDelim
    · subst hb
      exact absurd h (slipScan_ne_frameMissingHeader false [] bs)
    · exact slipDecodeTrace_other hb bs

/-- Once the loop has returned before the end of the delivery, further bytes are not examined. -/
theorem slipScan_append {escape : Bool} {out bs : List Byte}
    (h : (slipScan escape out bs).2 ≠ .unterminatedFrame) (more : List Byte) :
    slipScan escape out (bs ++ more) = slipScan escape out bs := by
  induction escape, out, bs using slipScan.induct
  case case1 => exact absurd (by rw [slipScan]) h
  case case4 | case6 => simp [slipScan, *]
  all_goals simp_all [slipScan]

theorem slipDecodeTrace_append {d : List Byte} (hNe : d ≠ [])
    (h : (slipDecodeTrace d).2 ≠ .unterminatedFrame) (more : List Byte) :
    slipDecodeTrace (d ++ more) = slipDecodeTrace d := by
  obtain ⟨b, bs, rfl⟩ := List.exists_cons_of_ne_nil hNe
  by_cases hb : b = slipDelim
  · subst hb
    exact slipScan_append h more
  · rw [List.cons_append, slipDecodeTrace_other hb, slipDecodeTrace_other hb]

/-- The loop reads the wire form of a byte as the byte (R68, R100). -/
theorem slipScan_escapeByte (b : Byte) (out rest : List Byte) :
    slipScan false out (escapeByte b ++ rest) = slipScan false (out ++ [b]) rest := by
  unfold escapeByte
  split
  next hDelim => subst hDelim; rfl
  next hDelim =>
    split
    next hEsc => subst hEsc; rfl
    next hEsc => simp [slipScan, hDelim, hEsc]

/-- The loop reads a payload in wire form up to the delimiter as the payload. -/
theorem slipScan_payload (p out more : List Byte) :
    slipScan false out (p.flatMap escapeByte ++ slipDelim :: more) = (out ++ p, .ok) := by
  induction p generalizing out with
  | nil => simp [slipScan, slipDelim, slipEsc]
  | cons b p ih =>
    rw [List.flatMap_cons, List.append_assoc, slipScan_escapeByte, ih, List.append_assoc,
      List.singleton_append]

theorem slipDecodeTrace_slipEncode (p more : List Byte) :
    slipDecodeTrace (slipEncode p ++ more) = (p, .ok) := by
  have hWire : slipEncode p ++ more =
      slipDelim :: (p.flatMap escapeByte ++ slipDelim :: more) := by simp [slipEncode]
  rw [hWire, slipDecodeTrace_delim, slipScan_payload, List.nil_append]

/-- Settles O39: `decode` returns the payload at the closing delimiter
(`slipDecodeTrace_slipEncode`). -/
theorem slipRoundTrip : Obligations.SlipRoundTrip := by
  intro p more
  have hMore : slipDecode (slipEncode p ++ more) = .ok p := by
    rw [slipDecode_eq, slipDecodeTrace_slipEncode, if_pos rfl]
  have hAlone : slipDecodeTrace (slipEncode p) = (p, .ok) := by
    simpa using slipDecodeTrace_slipEncode p []
  refine ⟨by rw [slipDecode_eq, hAlone, if_pos rfl], hMore, ?_⟩
  have hOk : doutResult .ok = 0x100#9 := by decide
  rw [deliveryItems, hAlone, hOk]

/-! ### The items of a delivery (R104 to R106) -/

theorem dout9Kind_doutByte (b : Byte) : dout9Kind (doutByte b) = 0#1 :=
  BitVec.extractLsb'_append_eq_left

theorem dout9Data_doutByte (b : Byte) : dout9Data (doutByte b) = b :=
  BitVec.extractLsb'_append_eq_right

theorem dout9Kind_doutResult (r : DecodeResult) : dout9Kind (doutResult r) = 1#1 :=
  BitVec.extractLsb'_append_eq_left

theorem dout9Data_doutResult (r : DecodeResult) : dout9Data (doutResult r) = resultCode r :=
  BitVec.extractLsb'_append_eq_right

theorem resultCode_eq_zero {r : DecodeResult} : resultCode r = 0#8 ↔ r = .ok := by
  cases r <;> decide

/-- Settles O38: the items are payload bytes and a result by definition; a decided outcome means
that `decode` returned at a byte of the delivery (`slipDecodeTrace_append`). -/
theorem oneResultItemAndLast : Obligations.OneResultItemAndLast := by
  intro d
  refine ⟨⟨_, rfl⟩, ?count, fun hDecided more => ?more⟩
  case count =>
    simp [deliveryItems, List.countP_append, List.countP_map, Function.comp_def,
      dout9Kind_doutByte, dout9Kind_doutResult]
  case more =>
    have hNe : d ≠ [] := by
      rintro rfl
      simp [slipDecodeTrace] at hDecided
    have hReturned : (slipDecodeTrace d).2 ≠ .unterminatedFrame := by
      rcases hDecided with h | h | ⟨h, -⟩ <;> simp [h]
    rw [deliveryItems, slipDecodeTrace_append hNe hReturned, ← deliveryItems]

/-- A consumer holds the bytes of a delivery until its result, which says whether it keeps them. -/
theorem consumerView_bytes_result (held bytes : List Byte) (r : DecodeResult)
    (later : List DoutItem) :
    consumerView held (bytes.map doutByte ++ doutResult r :: later) =
      (resultCode r, if r = .ok then held ++ bytes else []) :: consumerView [] later := by
  induction bytes generalizing held with
  | nil => simp [consumerView, dout9Kind_doutResult, dout9Data_doutResult, resultCode_eq_zero]
  | cons b bytes ih => simp [consumerView, dout9Kind_doutByte, dout9Data_doutByte, ih]

/-- Settles O40, by induction over the deliveries: each one's result decides what is kept of it
(`consumerView_bytes_result`). -/
theorem consumerSeesDecode : Obligations.ConsumerSeesDecode := by
  intro ds
  induction ds with
  | nil => rfl
  | cons d ds ih =>
    rw [List.flatMap_cons, deliveryItems, List.append_assoc, List.singleton_append,
      consumerView_bytes_result, ih, List.map_cons, slipDecode_eq]
    split
    next hOk => rw [hOk]; rfl
    next => rfl

/-! ### Deliveries (R104) -/

theorem deliveryCommands_cons (b : Byte) (bs : List Byte) :
    deliveryCommands (b :: bs) = .decByte b :: deliveryCommands bs := rfl

/-- One word of a list: its item, then what the others make of the phase it leads to. -/
theorem decFeed_cons {i : Instr} {p q : DecPhase} {item : Option DoutItem}
    (h : onDec i ⟨p, none⟩ = ⟨q, item⟩) (is : List Instr) (o : Option DoutItem) :
    decFeed (i :: is) ⟨p, o⟩ =
      (item.toList ++ (decFeed is ⟨q, none⟩).1, (decFeed is ⟨q, none⟩).2) := by
  rw [decFeed, h, ← decFeed_obuf is ⟨q, item⟩ none]

/-- In `SKIP` the rest of a delivery brings out nothing. -/
theorem decFeed_skip (bs : List Byte) :
    decFeed (deliveryCommands bs) ⟨.skip, none⟩ = ([], ⟨.header, none⟩) := by
  induction bs with
  | nil => rfl
  | cons b bs ih =>
    rw [deliveryCommands_cons, decFeed_cons (onDec_decByte_skip rfl b), ih]
    rfl

/-- The phase in which DEC stands while the loop of `decode` runs with `escape`. -/
def scanPhase (escape : Bool) : DecPhase := if escape then .escape else .body

/-- DEC follows the loop of `decode`: the items of the bytes in `out` and of the words to come are
the items of what the loop returns. -/
theorem decFeed_slipScan (escape : Bool) (out bs : List Byte) :
    out.map doutByte ++ (decFeed (deliveryCommands bs) ⟨scanPhase escape, none⟩).1 =
        (slipScan escape out bs).1.map doutByte ++ [doutResult (slipScan escape out bs).2] ∧
    (decFeed (deliveryCommands bs) ⟨scanPhase escape, none⟩).2 = ⟨.header, none⟩ := by
  induction escape, out, bs using slipScan.induct with
  | case1 escape out => cases escape <;> exact ⟨rfl, rfl⟩
  | case2 out rest ih =>
    have hByte : onDec (.decByte slipEscDelim) ⟨.escape, none⟩ =
        ⟨.body, some (doutByte slipDelim)⟩ := by decide
    simpa [deliveryCommands_cons, scanPhase, decFeed_cons hByte, slipScan] using ih
  | case3 out rest hNe ih =>
    have hByte : onDec (.decByte slipEscEsc) ⟨.escape, none⟩ =
        ⟨.body, some (doutByte slipEsc)⟩ := by decide
    simpa [deliveryCommands_cons, scanPhase, decFeed_cons hByte, slipScan, hNe] using ih
  | case4 out b rest hDelim hEsc =>
    have hInvalid : onDec (.decByte b) ⟨.escape, none⟩ =
        ⟨.skip, some (doutResult .invalidEscapeSequence)⟩ := by
      rw [onDec_decByte_escape rfl rfl, if_neg hDelim, if_neg hEsc]
    simp [deliveryCommands_cons, scanPhase, decFeed_cons hInvalid, decFeed_skip, slipScan, hDelim,
      hEsc]
  | case5 out rest ih =>
    have hEscape : onDec (.decByte slipEsc) ⟨.body, none⟩ = ⟨.escape, none⟩ := by decide
    simpa [deliveryCommands_cons, scanPhase, decFeed_cons hEscape, slipScan] using ih
  | case6 out rest hEsc =>
    have hClose : onDec (.decByte slipDelim) ⟨.body, none⟩ = ⟨.skip, some (doutResult .ok)⟩ := by
      decide
    simp [deliveryCommands_cons, scanPhase, decFeed_cons hClose, decFeed_skip, slipScan, hEsc]
  | case7 out b rest hEsc hDelim ih =>
    have hByte : onDec (.decByte b) ⟨.body, none⟩ = ⟨.body, some (doutByte b)⟩ := by
      rw [onDec_decByte_body rfl rfl, if_neg hDelim, if_neg hEsc]
    simpa [deliveryCommands_cons, scanPhase, decFeed_cons hByte, slipScan, hDelim, hEsc] using ih

/-- From `HEADER` a delivery comes out as its items, and DEC is in `HEADER` again. -/
theorem decFeed_delivery (d : List Byte) (o : Option DoutItem) :
    decFeed (deliveryCommands d) ⟨.header, o⟩ = (deliveryItems d, ⟨.header, none⟩) := by
  cases d with
  | nil => rfl
  | cons b bs =>
    rw [deliveryCommands_cons]
    by_cases hb : b = slipDelim
    · obtain ⟨hItems, hDec⟩ := decFeed_slipScan false [] bs
      have hOpen := (onDec_decByte_header (d := ⟨.header, none⟩) rfl rfl b).trans (if_pos hb)
      rw [decFeed_cons hOpen, hb]
      exact Prod.ext hItems hDec
    · have hMissing := (onDec_decByte_header (d := ⟨.header, none⟩) rfl rfl b).trans (if_neg hb)
      rw [decFeed_cons hMissing, decFeed_skip, deliveryItems, slipDecodeTrace_other hb]
      rfl

/-- Deliveries one after another. -/
theorem decFeed_deliveries (ds : List (List Byte)) {d : Dec} (hPhase : d.phase = .header) :
    decFeed (ds.flatMap deliveryCommands) d = (ds.flatMap deliveryItems, ⟨.header, none⟩) := by
  obtain ⟨phase, o⟩ := d
  obtain rfl : phase = .header := hPhase
  induction ds generalizing o with
  | nil => rfl
  | cons w ds ih =>
    rw [List.flatMap_cons, decFeed_append, decFeed_delivery, ih, List.flatMap_cons]

theorem deliveryItems_ok {d p : List Byte} (h : slipDecode d = .ok p) :
    deliveryItems d = p.map doutByte ++ [doutResult .ok] := by
  rw [slipDecode_eq] at h
  split at h
  next hOk => cases h; rw [deliveryItems, hOk]
  next => cases h

theorem slipDecodeTrace_error {d : List Byte} {e : DecodeResult} (h : slipDecode d = .error e) :
    (slipDecodeTrace d).2 = e := by
  rw [slipDecode_eq] at h
  split at h
  next => cases h
  next => cases h; rfl

/-- Settles O37: over a run DEC's items and state are what its accepted words make of them
(`run_decFeed`). -/
theorem deliveriesProduceTheirItems : Obligations.DeliveriesProduceTheirItems := by
  refine ⟨fun k s t ds hPhase hn hReach hAcc => ?run, fun d p => deliveryItems_ok,
    fun d e hErr => ?error⟩
  case run =>
    obtain ⟨hItems, hDec⟩ := run_decFeed hn hReach
    rw [hAcc, decFeed_deliveries ds hPhase] at hItems hDec
    refine ⟨hItems, congrArg Dec.phase hDec, fun hTaken => ?_⟩
    simpa only [State.items, hTaken, Option.toList_none, List.append_nil] using hItems
  case error =>
    have hCode := slipDecodeTrace_error hErr
    refine ⟨by rw [deliveryItems, hCode], fun hMissing => ?_⟩
    rw [slipDecodeTrace_frameMissingHeader (hCode.trans hMissing)]

end Sys2Proof.Machine
end

/-! PROOFS of the family 42_checksum: the commands of CKS one by one, its port at an edge, and the
checksum that runs of commands leave in the accumulator (R130 to R139). -/

section
namespace Sys2Proof.Machine

/-! ### The commands one by one (R131 to R134) -/

/-- An instruction of CKS's port changes CKS alone (R56). -/
theorem exec_of_cksPort {i : Instr} (h : i.port = .cks) (s : State) :
    exec i s = .next { s with cks := onCks s.cfg i s.cks } := by
  rw [exec_eq, onEnc_other (by simp [h]), onDec_other (by simp [h]), onRsq_other (by simp [h])]

/-- A word written as its `OP` bits in place, or-ed with its `DATA`, has these two fields (R66). -/
theorem cks34Word_eq_or (op : BitVec 2) (data : Word32) :
    cks34Word op data = op.setWidth 34 <<< 32 ||| data.setWidth 34 := by
  rw [cks34Word, BitVec.append_def, BitVec.shiftLeftZeroExtend_eq, BitVec.setWidth'_eq]

theorem decode_cks_or {i : Instr} {op : BitVec 2} {data : Word32} {opBits : BitVec 34}
    (hEncode : encode i = .cks (cks34Word op data)) (hOp : opBits = op.setWidth 34 <<< 32) :
    decode (.cks (opBits ||| data.setWidth 34)) = i := by
  rw [hOp, ← cks34Word_eq_or]
  exact decode_eq_of_encode hEncode

/-- Settles O42: of CKS, the command writes `acc` alone. -/
theorem cksWordXorsAccumulator : Obligations.CksWordXorsAccumulator := by
  intro s w
  exact ⟨decode_cks_or rfl (by decide), _, exec_of_cksPort rfl s, rfl, rfl, rfl⟩

/-- Settles O43: the seed does not depend on the accumulator. -/
theorem cksInitLoadsSeed : Obligations.CksInitLoadsSeed := by
  intro s seed
  exact ⟨decode_cks_or rfl (by decide), _, exec_of_cksPort rfl s, rfl, rfl⟩

/-- Settles O44: to CKS both commands load the same seed. -/
theorem cksInitmLoadsMagic : Obligations.CksInitmLoadsMagic := by
  intro s d
  exact ⟨decode_cks_or rfl (by decide), _, exec_of_cksPort rfl s, rfl, rfl, exec_of_cksPort rfl s⟩

/-- Settles O45: the sticky bit alone makes the run count as faulted (R184). -/
theorem cksReservedSetsOnlyIllop : Obligations.CksReservedSetsOnlyIllop := by
  intro s d
  refine ⟨decode_cks_or rfl (by decide), _, exec_of_cksPort rfl s, rfl, ?_⟩
  simp [State.faulted, onCks, cksRaiseIllegal]

/-! ### The port at an edge (R138, R139) -/

/-- Settles O46, by whether a command is offered: CKS is ready, so what is offered is accepted. -/
theorem cksPortEdge : Obligations.CksPortEdge := by
  intro s
  refine ⟨by simp [cksCmdReady], rfl, fun hr => ?_⟩
  obtain ⟨t, ht⟩ := step_next s
  have hCks := step_cks hr ht
  refine ⟨t, ht, fun hv => ?quiet, fun hv => ?command⟩
  case quiet =>
    have hNone : acceptedCks s = [] := offered_waits (.inl hv)
    rw [hCks, hNone, List.foldl_nil]
  case command =>
    have hOne : acceptedCks s = [decode (.cks s.now.cksCmd)] :=
      offered_taken hv (cksCmdReady_of_noReset hr)
    rw [hOne, List.foldl_cons, List.foldl_nil] at hCks
    exact ⟨_, exec_eq _ s, hCks, congrArg Cks.acc hCks⟩

/-! ### Runs of commands (R135) -/

/-- A list of `CKS.WORD` commands folds its words into the accumulator. -/
theorem foldl_onCks_words_acc (p : Params) (ws : List Word32) (c : Cks) :
    ((ws.map .cksWord).foldl (fun c i => onCks p i c) c).acc = checksum ws c.acc := by
  rw [List.foldl_map, checksum]
  exact (List.foldl_hom Cks.acc fun _ _ => rfl).symm

/-- Settles O47: over a run CKS is what its accepted commands make of it (`run_cks`); the first
loads the seed, the others fold the words. -/
theorem sumLeavesChecksum : Obligations.SumLeavesChecksum := by
  intro k s t seed ws hn hReach
  have hCks := run_cks hn hReach
  constructor
  case left =>
    intro hAcc
    rw [hCks, hAcc, sumCommands, List.foldl_cons, foldl_onCks_words_acc, onCks, cksLoad]
  case right =>
    intro hAcc
    rw [hCks, hAcc, summCommands, List.foldl_cons, foldl_onCks_words_acc, onCks, cksLoad]

/-! ### The laws of the checksum (R136, R137) -/

theorem checksum_append (ws vs : List Word32) (seed : Word32) :
    checksum (ws ++ vs) seed = checksum vs (checksum ws seed) :=
  List.foldl_append

theorem checksum_perm {ws vs : List Word32} (h : ws.Perm vs) (seed : Word32) :
    checksum ws seed = checksum vs seed := by
  have : RightCommutative fun acc w : Word32 => acc ^^^ w :=
    ⟨fun acc v w => by rw [BitVec.xor_assoc, BitVec.xor_comm v w, ← BitVec.xor_assoc]⟩
  exact h.foldl_eq seed

/-- Pairs of one word cancel. -/
theorem checksum_replicate_even (n : Nat) (w seed : Word32) :
    checksum (List.replicate (2 * n) w) seed = seed := by
  induction n with
  | zero => rfl
  | succ n ih =>
    have hPair : checksum [w, w] seed = seed := by simp [checksum]
    have hSplit : List.replicate (2 * (n + 1)) w = [w, w] ++ List.replicate (2 * n) w := rfl
    rw [hSplit, checksum_append, hPair, ih]

theorem checksum_xor_seed (ws : List Word32) (a b : Word32) :
    checksum ws (a ^^^ b) = a ^^^ checksum ws b :=
  List.foldl_hom (a ^^^ ·) fun acc w => BitVec.xor_assoc a acc w

/-- A part of the word on which XOR acts by itself: the checksum acts on it by itself. -/
theorem checksum_part {α : Type} (part : Word32 → α) (xorPart : α → α → α)
    (hXor : ∀ x y, xorPart (part x) (part y) = part (x ^^^ y)) (ws : List Word32) (seed : Word32) :
    part (checksum ws seed) = (ws.map part).foldl xorPart (part seed) := by
  rw [List.foldl_map]
  exact (List.foldl_hom part hXor).symm

theorem checksum_getLsbD (ws : List Word32) (seed : Word32) (bit : Nat) :
    (checksum ws seed).getLsbD bit =
      (ws.map (fun w => w.getLsbD bit)).foldl Bool.xor (seed.getLsbD bit) :=
  checksum_part (fun w => w.getLsbD bit) Bool.xor (fun _ _ => BitVec.getLsbD_xor.symm) ws seed

theorem checksum_extractLsb' (ws : List Word32) (seed : Word32) (start len : Nat) :
    (checksum ws seed).extractLsb' start len =
      (ws.map (fun w => w.extractLsb' start len)).foldl (fun x y => x ^^^ y)
        (seed.extractLsb' start len) :=
  checksum_part (fun w => w.extractLsb' start len) _
    (fun _ _ => BitVec.extractLsb'_xor.symm) ws seed

/-- Settles O48: the four laws one by one. -/
theorem checksumLaws : Obligations.ChecksumLaws := by
  intro ws vs w seed
  refine ⟨fun h => checksum_perm h seed, fun n => ?even, ?seed, fun vseed bit hSeed hBits => ?bit⟩
  case even => rw [checksum_append, checksum_replicate_even]
  case seed => rw [← checksum_xor_seed, show seed ^^^ 0 = seed from BitVec.xor_zero]
  case bit => rw [checksum_getLsbD, checksum_getLsbD, hSeed, hBits]

theorem setWidth_byte_low (b : Byte) : (b.setWidth 32).extractLsb' 0 8 = b := by
  revert b; decide

theorem setWidth_byte_high (b : Byte) : (b.setWidth 32).extractLsb' 8 24 = 0#24 := by
  revert b; decide

/-- Settles O49: in bits 7:0 each word is its byte, and in bits 31:8 it is 0. -/
theorem zeroExtendedBytesChecksum : Obligations.ZeroExtendedBytesChecksum := by
  intro bytes seed
  simp only [checksum_extractLsb', List.foldl_map, setWidth_byte_low, setWidth_byte_high, true_and]
  exact foldl_fixed _ bytes _ fun _ _ _ => BitVec.xor_zero

end Sys2Proof.Machine
end

/-! PROOFS of the family 43_reset_sequencer: RSQ's command, its steps by itself phase by phase, and
the runs of a sequence: waiting for the transport, and the waveform of the lines (R150 to R164). -/

section
namespace Sys2Proof.Machine

/-! ### The command (R151) -/

/-- An instruction of RSQ's port changes RSQ alone (R56). -/
theorem exec_of_rsqPort {i : Instr} (h : i.port = .rsq) (s : State) :
    exec i s = .next { s with rsq := onRsq s.cfg s.now.tpIsOpen i s.rsq } := by
  rw [exec_eq, onEnc_other (by simp [h]), onDec_other (by simp [h]), onCks_other (by simp [h])]

theorem rsqEnter_open (p : Params) (f : Bool) (r : Rsq) :
    rsqEnter p true f r = rsqHoldReset p { rsqClearDone r with flash := f } := rfl

theorem rsqEnter_closed (p : Params) (f : Bool) (r : Rsq) :
    rsqEnter p false f r =
      { rsqClearDone r with flash := f, openReq := true, phase := .openWait } := rfl

theorem rsqEnter_done (p : Params) (isOpen f : Bool) (r : Rsq) :
    (rsqEnter p isOpen f r).done = false := by
  cases isOpen <;> rfl

theorem rsqEnter_result (p : Params) (isOpen f : Bool) (r : Rsq) :
    (rsqEnter p isOpen f r).result = r.result := by
  cases isOpen <;> rfl

theorem onRsq_enter_idle {r : Rsq} (h : r.phase = .idle) (p : Params) (isOpen f : Bool) :
    onRsq p isOpen (.rsqEnter f) r = rsqEnter p isOpen f r :=
  rsqTake_idle h

theorem decode_rsq_ofBool (f : Bool) : decode (.rsq (BitVec.ofBool f)) = .rsqEnter f :=
  decode_eq_of_encode rfl

/-- Settles O50, by whether the transport is open. -/
theorem rsqEnterStartsSequence : Obligations.RsqEnterStartsSequence := by
  intro s f hp
  refine ⟨decode_rsq_ofBool f, _, exec_of_rsqPort rfl s, fun hOpen => ?opened, fun hOpen => ?closed⟩
  case opened => rw [onRsq_enter_idle hp, hOpen, rsqEnter_open]; rfl
  case closed => rw [onRsq_enter_idle hp, hOpen, rsqEnter_closed]; rfl

/-! ### RSQ's part of a step, by what it accepts (R150) -/

/-- A running sequence keeps RSQ from taking a command (R150). -/
theorem acceptedRsq_busy {s : State} (h : s.rsq.phase ≠ .idle) : acceptedRsq s = [] := by
  rcases acceptedRsq_cases s with ha | ⟨hp, -⟩
  · exact ha
  · exact absurd hp h

theorem acceptedRsq_openWait {s : State} (h : s.rsq.phase = .openWait) : acceptedRsq s = [] :=
  acceptedRsq_busy (by simp [h])

theorem acceptedRsq_hold {s : State} (h : s.rsq.phase = .holdReset ∨ s.rsq.phase = .holdTarget) :
    acceptedRsq s = [] :=
  acceptedRsq_busy (by rcases h with h | h <;> simp [h])

theorem step_rsq_quiet {s t : State} (hr : s.now.rst = false) (h : step s = .next t)
    (ha : acceptedRsq s = []) : t.rsq = rsqEdge s.cfg s.now s.rsq := by
  rw [step_rsq hr h, ha]; rfl

/-- The accepted command acts on RSQ in `IDLE`, where the edge by itself only clears `done`, as the
command does too. -/
theorem step_rsq_enter {s t : State} {f : Bool} (hr : s.now.rst = false) (h : step s = .next t)
    (hp : s.rsq.phase = .idle) (ha : acceptedRsq s = [.rsqEnter f]) :
    t.rsq = rsqEnter s.cfg s.now.tpIsOpen f s.rsq := by
  have hIdle : (rsqClearDone s.rsq).phase = .idle := hp
  rw [step_rsq hr h, ha, List.foldl_cons, List.foldl_nil, rsqEdge_idle hp, onRsq_enter_idle hIdle]
  rfl

/-- Settles O51. -/
theorem rsqReadyOnlyWhenIdle : Obligations.RsqReadyOnlyWhenIdle := by
  intro s
  refine ⟨by simp [rsqCmdReady], acceptedRsq_busy, fun hp hr => ?_⟩
  obtain ⟨t, ht⟩ := step_next s
  exact ⟨t, ht, step_rsq_quiet hr ht (acceptedRsq_busy hp)⟩

/-! ### The steps by itself (R152 to R156) -/

/-- Settles O52: the edge by itself, in each of the four cases. -/
theorem rsqIdleAndOpenWait : Obligations.RsqIdleAndOpenWait := by
  intro s hr ha
  obtain ⟨t, ht⟩ := step_next s
  refine ⟨t, ht, ?_⟩
  rw [step_rsq_quiet hr ht ha]
  exact ⟨rsqEdge_idle, rsqEdge_openWait, rsqEdge_openWait_ok, rsqEdge_openWait_failed⟩

/-- A hold phase with the timer not at 1 counts, whichever phase it is (R154, R155). -/
theorem rsqEdge_hold_count {p : Params} {i : Inputs} {r : Rsq}
    (h : r.phase = .holdReset ∨ r.phase = .holdTarget) (ht : r.timer ≠ 1) :
    rsqEdge p i r = rsqCount p (rsqClearDone r) := by
  rcases h with h | h
  · exact rsqEdge_holdReset_count h ht
  · exact rsqEdge_holdTarget_count h ht

theorem rsqCount_rsqClearDone {p : Params} {r : Rsq} (h : r.timer ≠ 0) :
    rsqCount p (rsqClearDone r) = { r with timer := r.timer - 1, done := false } := by
  simp only [rsqCount, rsqClearDone, rsqTimerPred_pos h]

/-- Settles O53: the timer is not 0, so that it counts down without a wrap. -/
theorem rsqHoldPhases : Obligations.RsqHoldPhases := by
  intro s hr hLow hHigh
  obtain ⟨t, ht⟩ := step_next s
  refine ⟨t, ht, fun hp hTimer => ?count, fun hp hTimer => ?target, fun hp hTimer => ?release⟩
  case count =>
    have hRsq := step_rsq_quiet hr ht (acceptedRsq_hold hp)
    rw [rsqEdge_hold_count hp hTimer, rsqCount_rsqClearDone (by omega)] at hRsq
    rw [hRsq]
    exact ⟨rfl, Nat.le_sub_one_of_lt (by omega), (Nat.sub_le _ _).trans hHigh⟩
  case target =>
    have hRsq := step_rsq_quiet hr ht (acceptedRsq_hold (.inl hp))
    rw [rsqEdge_holdReset_end hp hTimer] at hRsq
    rw [hRsq]
    exact ⟨rfl, holdCycles_ge s.cfg⟩
  case release =>
    rw [step_rsq_quiet hr ht (acceptedRsq_hold (.inr hp)), rsqEdge_holdTarget_end hp hTimer]
    rfl

/-! ### The pulse of `DONE` (R157) -/

/-- RSQ completes a sequence at this edge: it raises `TransportError` (R153) or releases (R156). -/
def rsqCompletes (i : Inputs) (r : Rsq) : Prop :=
  (r.phase = .openWait ∧ i.tpOpenAck = true ∧ i.tpOpenOk = false) ∨
  (r.phase = .holdTarget ∧ r.timer = 1)

theorem rsqEdge_done_of_completes {i : Inputs} {r : Rsq} (h : rsqCompletes i r) (p : Params) :
    (rsqEdge p i r).done = true := by
  rcases h with ⟨hp, ha, ho⟩ | ⟨hp, ht⟩
  · rw [rsqEdge_openWait_failed hp ha ho]; rfl
  · rw [rsqEdge_holdTarget_end hp ht]; rfl

theorem rsqEdge_of_not_completes {i : Inputs} {r : Rsq} (h : ¬ rsqCompletes i r) (p : Params) :
    (rsqEdge p i r).done = false ∧ (rsqEdge p i r).result = r.result := by
  cases hp : r.phase
  case idle => rw [rsqEdge_idle hp]; exact ⟨rfl, rfl⟩
  case openWait =>
    cases ha : i.tpOpenAck
    case false => rw [rsqEdge_openWait hp ha]; exact ⟨rfl, rfl⟩
    case true =>
      have ho : i.tpOpenOk = true := by
        by_contra ho
        exact h (.inl ⟨hp, ha, Bool.eq_false_of_not_eq_true ho⟩)
      rw [rsqEdge_openWait_ok hp ha ho]
      exact ⟨rfl, rfl⟩
  case holdReset =>
    by_cases ht : r.timer = 1
    · rw [rsqEdge_holdReset_end hp ht]; exact ⟨rfl, rfl⟩
    · rw [rsqEdge_holdReset_count hp ht]; exact ⟨rfl, rfl⟩
  case holdTarget =>
    have ht : r.timer ≠ 1 := fun ht => h (.inr ⟨hp, ht⟩)
    rw [rsqEdge_holdTarget_count hp ht]
    exact ⟨rfl, rfl⟩

theorem not_rsqCompletes_of_idle {i : Inputs} {r : Rsq} (h : r.phase = .idle) :
    ¬ rsqCompletes i r := by
  simp [rsqCompletes, h]

/-- At an edge outside reset that completes no sequence, with or without a command. -/
theorem step_rsq_not_completes {s t : State} (hr : s.now.rst = false) (h : step s = .next t)
    (hc : ¬ rsqCompletes s.now s.rsq) : t.rsq.done = false ∧ t.rsq.result = s.rsq.result := by
  rcases acceptedRsq_cases s with ha | ⟨hp, f, ha⟩
  · rw [step_rsq_quiet hr h ha]
    exact rsqEdge_of_not_completes hc s.cfg
  · rw [step_rsq_enter hr h hp ha]
    exact ⟨rsqEnter_done _ _ _ _, rsqEnter_result _ _ _ _⟩

theorem step_rsq_completes {s t : State} (hr : s.now.rst = false) (h : step s = .next t)
    (hc : rsqCompletes s.now s.rsq) : t.rsq.done = true := by
  have hBusy : s.rsq.phase ≠ .idle := fun hp => not_rsqCompletes_of_idle hp hc
  rw [step_rsq_quiet hr h (acceptedRsq_busy hBusy)]
  exact rsqEdge_done_of_completes hc s.cfg

/-- Settles O54, by whether the edge completes a sequence. -/
theorem doneIsPulseAtCompletion : Obligations.DoneIsPulseAtCompletion := by
  intro s t hr h
  change (t.rsq.done = true ↔ rsqCompletes s.now s.rsq) ∧ _
  by_cases hc : rsqCompletes s.now s.rsq
  · have hDone := step_rsq_completes hr h hc
    simp [hDone, hc]
  · obtain ⟨hDone, hResult⟩ := step_rsq_not_completes hr h hc
    simp [hDone, hc, hResult]

/-! ### What RSQ samples (R159) -/

/-- In the hold phases RSQ's own step sees no input. -/
theorem rsqEdge_hold_congr {r : Rsq} (h : r.phase = .holdReset ∨ r.phase = .holdTarget)
    (p : Params) (i i' : Inputs) : rsqEdge p i r = rsqEdge p i' r := by
  rcases h with h | h <;> simp only [rsqEdge, h]

/-- Two steps without a command of states that agree about RSQ and the parameters make the same of
RSQ where its own step sees the same of the inputs. -/
theorem rsq_eq_of_quiet {s s' t t' : State} (hRsq : s.rsq = s'.rsq) (hCfg : s.cfg = s'.cfg)
    (hr : s.now.rst = false) (hr' : s'.now.rst = false) (h : step s = .next t)
    (h' : step s' = .next t') (ha : acceptedRsq s = []) (ha' : acceptedRsq s' = [])
    (hEdge : rsqEdge s.cfg s.now s.rsq = rsqEdge s.cfg s'.now s.rsq) : t.rsq = t'.rsq := by
  rw [step_rsq_quiet hr h ha, step_rsq_quiet hr' h' ha', ← hRsq, ← hCfg, hEdge]

/-- Settles O55, phase by phase. -/
theorem rsqSamplesOnlyWhereStated : Obligations.RsqSamplesOnlyWhereStated := by
  intro s s' t t' hRsq hCfg hr hr' h h'
  have quiet := rsq_eq_of_quiet hRsq hCfg hr hr' h h'
  refine ⟨fun hp => ?hold, fun hp hAcc hOpen => ?command, fun hp ha ha' => ?idle,
    fun hp hAck hOk => ?acknowledge, fun hp hAck hAck' => ?waiting⟩
  case hold =>
    exact quiet (acceptedRsq_hold hp) (acceptedRsq_hold (hRsq ▸ hp))
      (rsqEdge_hold_congr hp s.cfg s.now s'.now)
  case command =>
    have hEdge : rsqEdge s'.cfg s.now s'.rsq = rsqEdge s'.cfg s'.now s'.rsq := by
      rw [rsqEdge_idle (hRsq ▸ hp), rsqEdge_idle (hRsq ▸ hp)]
    rw [step_rsq hr h, step_rsq hr' h', hAcc, hOpen, hCfg, hRsq, hEdge]
  case idle => exact quiet ha ha' (by rw [rsqEdge_idle hp, rsqEdge_idle hp])
  case acknowledge =>
    exact quiet (acceptedRsq_openWait hp) (acceptedRsq_openWait (hRsq ▸ hp))
      (rsqEdge_congr hAck hOk s.cfg s.rsq)
  case waiting =>
    exact quiet (acceptedRsq_openWait hp) (acceptedRsq_openWait (hRsq ▸ hp))
      (by rw [rsqEdge_openWait hp hAck, rsqEdge_openWait hp hAck'])

/-! ### Waiting for the transport (R164) -/

/-- At one edge without an acknowledge: `done` is 0 already, so nothing is written anew. -/
theorem step_rsq_waiting {s t : State} (hr : s.now.rst = false) (h : step s = .next t)
    (hp : s.rsq.phase = .openWait) (hDone : s.rsq.done = false) (hAck : s.now.tpOpenAck = false) :
    t.rsq = s.rsq := by
  rw [step_rsq_quiet hr h (acceptedRsq_openWait hp), rsqEdge_openWait hp hAck, rsqClearDone,
    ← hDone]

/-- Over a run: RSQ stays as it is, and accepts nothing. -/
theorem run_rsq_waiting {k : Nat} {s t : State} (hp : s.rsq.phase = .openWait)
    (hDone : s.rsq.done = false) (hn : throughout noReset k s)
    (hAck : throughout (fun u => u.now.tpOpenAck = false) k s) (h : reaches k s t) :
    t.rsq = s.rsq ∧ acceptedIn acceptedRsq k s = [] := by
  induction k generalizing s with
  | zero => rw [reaches_zero] at h; subst h; exact ⟨rfl, rfl⟩
  | succ k ih =>
    obtain ⟨u, hu, hk⟩ := reaches_succ.mp h
    obtain ⟨hr, hn'⟩ := (throughout_succ hu).mp hn
    obtain ⟨hNow, hLater⟩ := (throughout_succ hu).mp hAck
    have hStay : u.rsq = s.rsq := step_rsq_waiting hr hu hp hDone hNow
    obtain ⟨hEnd, hNone⟩ := ih (hStay ▸ hp) (hStay ▸ hDone) hn' hLater hk
    rw [acceptedIn_succ hu, acceptedRsq_openWait hp, hNone]
    exact ⟨hEnd.trans hStay, rfl⟩

/-- Settles O56. -/
theorem openWaitNeverTimesOut : Obligations.OpenWaitNeverTimesOut := by
  intro k s t hp hReq hDone hn hAck h
  obtain ⟨hStay, hNone⟩ := run_rsq_waiting hp hDone hn hAck h
  refine ⟨hStay, ?_, hNone, acceptedRsq_openWait (hStay ▸ hp)⟩
  rw [outputs, hStay, hReq]

/-! ### The waveform of a sequence (R158) -/

/-- RSQ in the `j`-th cycle after the edge that entered `HOLD_RESET` for the argument `f`, with `H`
cycles to each hold: the rows of R158's table, with what the timer has left. -/
inductive SequenceAt (H : Nat) (f : Bool) (j : Nat) (r : Rsq) : Prop
  | holdReset (hj : j ≤ H) (hPhase : r.phase = .holdReset) (hTimer : r.timer + j = H + 1)
      (hFlash : r.flash = f) (hDtr : r.dtr = false) (hRts : r.rts = true) (hDone : r.done = false)
  | holdTarget (hj : H < j) (hj' : j ≤ 2 * H) (hPhase : r.phase = .holdTarget)
      (hTimer : r.timer + j = 2 * H + 1) (hDtr : r.dtr = f) (hRts : r.rts = false)
      (hDone : r.done = false)
  | released (hj : 2 * H < j) (hPhase : r.phase = .idle) (hDtr : r.dtr = false)
      (hRts : r.rts = false) (hResult : r.result = .ok) (hDone : r.done = true ↔ j = 2 * H + 1)

/-- Entering `HOLD_RESET` starts the waveform. -/
theorem sequenceAt_one {p : Params} {f : Bool} {r : Rsq} (hFlash : r.flash = f)
    (hDone : r.done = false) : SequenceAt p.holdCycles f 1 (rsqHoldReset p r) :=
  .holdReset (one_le_holdCycles p) rfl rfl hFlash rfl rfl hDone

/-- Counting down in a hold that goes on: one cycle further, the timer one less. -/
theorem rsqTimerPred_add_succ {p : Params} {t j n : Nat} (h : t + j = n + 1) (hj : j ≤ n) :
    rsqTimerPred p t + (j + 1) = n + 1 := by
  rw [rsqTimerPred_pos (by omega)]
  omega

/-- RSQ's own step takes the waveform one cycle further: in a row, and from each row to the next
when the timer is at 1. -/
theorem sequenceAt_succ {p : Params} {f : Bool} {j : Nat} {r : Rsq} (i : Inputs)
    (h : SequenceAt p.holdCycles f j r) :
    SequenceAt p.holdCycles f (j + 1) (rsqEdge p i r) := by
  have hH := one_le_holdCycles p
  cases h with
  | holdReset hj hPhase hTimer hFlash hDtr hRts hDone =>
    by_cases ht : r.timer = 1
    · rw [rsqEdge_holdReset_end hPhase ht]
      have hTimer' : p.holdCycles + (j + 1) = 2 * p.holdCycles + 1 := by omega
      exact .holdTarget (by omega) (by omega) rfl hTimer' hFlash rfl rfl
    · rw [rsqEdge_holdReset_count hPhase ht]
      exact .holdReset (by omega) hPhase (rsqTimerPred_add_succ hTimer hj) hFlash hDtr hRts rfl
  | holdTarget hj hj' hPhase hTimer hDtr hRts hDone =>
    by_cases ht : r.timer = 1
    · rw [rsqEdge_holdTarget_end hPhase ht]
      have hDone' : (rsqRelease r).done = true ↔ j + 1 = 2 * p.holdCycles + 1 :=
        iff_of_true rfl (by omega)
      exact .released (by omega) rfl rfl hRts rfl hDone'
    · rw [rsqEdge_holdTarget_count hPhase ht]
      exact .holdTarget (by omega) (by omega) hPhase (rsqTimerPred_add_succ hTimer hj') hDtr hRts
        rfl
  | released hj hPhase hDtr hRts hResult hDone =>
    rw [rsqEdge_idle hPhase]
    have hDone' : (rsqClearDone r).done = true ↔ j + 1 = 2 * p.holdCycles + 1 :=
      iff_of_false Bool.false_ne_true (by omega)
    exact .released (by omega) hPhase hDtr hRts hResult hDone'

/-- Over a run without reset in which RSQ accepts nothing the waveform goes on. -/
theorem run_sequenceAt {k j : Nat} {s t : State} {f : Bool} (hn : throughout noReset k s)
    (h : reaches k s t) (ha : acceptedIn acceptedRsq k s = [])
    (hs : SequenceAt s.cfg.holdCycles f j s.rsq) :
    SequenceAt s.cfg.holdCycles f (j + k) t.rsq := by
  induction k generalizing s j with
  | zero => rw [reaches_zero] at h; subst h; exact hs
  | succ k ih =>
    obtain ⟨u, hu, hk⟩ := reaches_succ.mp h
    obtain ⟨hr, hn'⟩ := (throughout_succ hu).mp hn
    rw [acceptedIn_succ hu, List.append_eq_nil_iff] at ha
    obtain ⟨hNow, hLater⟩ := ha
    have hNext := sequenceAt_succ s.now hs
    rw [← step_rsq_quiet hr hu hNow, ← step_keeps_cfg hu] at hNext
    have hEnd := ih hn' hk hLater hNext
    rwa [step_keeps_cfg hu, Nat.add_right_comm] at hEnd

/-- Both ways into `HOLD_RESET` start the waveform: the command with the transport open (R151), and
the successful acknowledge (R153). -/
theorem step_sequenceAt_one {s t : State} {f : Bool} (hr : s.now.rst = false)
    (h : step s = .next t)
    (hEntry : (s.rsq.phase = .idle ∧ acceptedRsq s = [.rsqEnter f] ∧ s.now.tpIsOpen = true) ∨
      (s.rsq.phase = .openWait ∧ s.rsq.flash = f ∧ s.now.tpOpenAck = true ∧
        s.now.tpOpenOk = true)) :
    SequenceAt s.cfg.holdCycles f 1 t.rsq := by
  rcases hEntry with ⟨hp, ha, hOpen⟩ | ⟨hp, hFlash, hAck, hOk⟩
  · rw [step_rsq_enter hr h hp ha, hOpen, rsqEnter_open]
    exact sequenceAt_one rfl rfl
  · rw [step_rsq_quiet hr h (acceptedRsq_openWait hp), rsqEdge_openWait_ok hp hAck hOk]
    exact sequenceAt_one hFlash rfl

/-- Settles O57: the first edge enters `HOLD_RESET`, the others take the waveform to cycle `j`, and
`j` lies in one row of the table. -/
theorem sequenceWaveform : Obligations.SequenceWaveform := by
  intro j s t f hEntry hj hn h hAcc
  obtain ⟨k, rfl⟩ := Nat.exists_eq_add_of_le hj
  rw [Nat.add_comm 1 k] at hn h hAcc
  obtain ⟨u, hu, hk⟩ := reaches_succ.mp h
  obtain ⟨hr, hn'⟩ := (throughout_succ hu).mp hn
  have hLater : acceptedIn acceptedRsq k u = [] := by
    rwa [acceptedIn_succ hu, List.append_right_eq_self] at hAcc
  have hFirst := step_sequenceAt_one hr hu hEntry
  rw [← step_keeps_cfg hu] at hFirst ⊢
  cases run_sequenceAt hn' hk hLater hFirst with
  | holdReset hj hPhase _ _ hDtr hRts hDone =>
    refine ⟨fun _ => ⟨hDtr, hRts, hPhase⟩, by omega, by omega, ?_⟩
    exact iff_of_false (by simp [hDone]) (by omega)
  | holdTarget hj hj' hPhase _ hDtr hRts hDone =>
    refine ⟨by omega, fun _ _ => ⟨hDtr, hRts, hPhase⟩, by omega, ?_⟩
    exact iff_of_false (by simp [hDone]) (by omega)
  | released hj hPhase hDtr hRts hResult hDone =>
    exact ⟨by omega, by omega, fun _ => ⟨hDtr, hRts, hPhase, hResult⟩, hDone⟩

end Sys2Proof.Machine
end

/-! PROOFS of the family 60_exceptions: nothing stops the block (R180), and its sticky bits are kept
until a reset (R184, R186). -/

section
namespace Sys2Proof.Machine

/-- Settles O7: the equations of a step and of an instruction answer a next state in every case. -/
theorem blockNeverStops : Obligations.BlockNeverStops := ⟨step_next, exec_next⟩

/-! ### The sticky bits under one command (R84, R85, R134) -/

/-- All that a command taken by ENC can do to its sticky bits: nothing, or raise one of them. -/
theorem onEnc_sticky_cases {e : Enc} (hBuf : e.buf = []) (i : Instr) :
    ((onEnc i e).seqerr = e.seqerr ∧ (onEnc i e).illop = e.illop) ∨
    onEnc i e = encRaiseSequence e ∨ onEnc i e = encRaiseIllegal e := by
  cases i
  case encByte b =>
    cases hFrame : e.inFrame
    case false => exact .inr (.inl (onEnc_outOfSequence hBuf ⟨b, .inr ⟨.inl rfl, hFrame⟩⟩))
    case true => exact .inl (by simp [onEnc_encByte_inside hBuf hFrame])
  case encBegin d =>
    cases hFrame : e.inFrame
    case false => exact .inl (by simp [onEnc_encBegin_outside hBuf hFrame])
    case true => exact .inr (.inl (onEnc_outOfSequence hBuf ⟨d, .inl ⟨rfl, hFrame⟩⟩))
  case encEnd d =>
    cases hFrame : e.inFrame
    case false => exact .inr (.inl (onEnc_outOfSequence hBuf ⟨d, .inr ⟨.inr rfl, hFrame⟩⟩))
    case true => exact .inl (by simp [onEnc_encEnd_inside hBuf hFrame])
  case encReserved => exact .inr (.inr (encTake_free hBuf))
  all_goals exact .inl ⟨rfl, rfl⟩

/-- A command of CKS writes the accumulator, or raises the sticky bit. -/
theorem onCks_sticky_cases (p : Params) (i : Instr) (c : Cks) :
    (onCks p i c).illop = c.illop ∨ onCks p i c = cksRaiseIllegal c := by
  cases i
  case cksReserved => exact .inr rfl
  all_goals exact .inl rfl

/-! ### The sticky bits over a run (R186) -/

/-- Every sticky bit that is set in `s` is set in `t`. -/
structure StickyKept (s t : State) : Prop where
  seqerr : s.enc.seqerr = true → t.enc.seqerr = true
  encIllop : s.enc.illop = true → t.enc.illop = true
  cksIllop : s.cks.illop = true → t.cks.illop = true

theorem StickyKept.refl (s : State) : StickyKept s s := ⟨id, id, id⟩

theorem StickyKept.trans {s t u : State} (h : StickyKept s t) (h' : StickyKept t u) :
    StickyKept s u :=
  ⟨h'.seqerr ∘ h.seqerr, h'.encIllop ∘ h.encIllop, h'.cksIllop ∘ h.cksIllop⟩

theorem faulted_iff (s : State) :
    s.faulted = true ↔ (s.enc.seqerr = true ∨ s.enc.illop = true) ∨ s.cks.illop = true := by
  simp [State.faulted]

/-- A faulted run stays faulted: the bit that says so is kept (R184). -/
theorem StickyKept.faulted {s t : State} (h : StickyKept s t) (hs : s.faulted = true) :
    t.faulted = true :=
  (faulted_iff t).mpr (((faulted_iff s).mp hs).imp (.imp h.seqerr h.encIllop) h.cksIllop)

theorem step_enc_sticky {s t : State} (hr : s.now.rst = false) (h : step s = .next t) :
    (s.enc.seqerr = true → t.enc.seqerr = true) ∧ (s.enc.illop = true → t.enc.illop = true) := by
  rcases acceptedEnc_cases s with ha | ⟨i, ha⟩
  · obtain ⟨hEnc, -⟩ := step_enc_quiet hr h ha
    rw [hEnc]
    exact ⟨id, id⟩
  · obtain ⟨hEnc, -⟩ := step_enc_command hr h ha
    have hFree : ({ s.enc with buf := [] } : Enc).buf = [] := rfl
    rw [hEnc]
    rcases onEnc_sticky_cases hFree i with ⟨hSeq, hIll⟩ | hRaise | hRaise
    · rw [hSeq, hIll]; exact ⟨id, id⟩
    · rw [hRaise]; exact ⟨fun _ => rfl, id⟩
    · rw [hRaise]; exact ⟨id, fun _ => rfl⟩

theorem step_cks_sticky {s t : State} (hr : s.now.rst = false) (h : step s = .next t)
    (hs : s.cks.illop = true) : t.cks.illop = true := by
  rw [step_cks hr h]
  refine List.foldlRecOn (motive := fun c : Cks => c.illop = true) _ _ hs fun c hc i _ => ?_
  rcases onCks_sticky_cases s.cfg i c with hSame | hRaise
  · exact hSame.trans hc
  · rw [hRaise]; rfl

theorem step_stickyKept {s t : State} (hr : s.now.rst = false) (h : step s = .next t) :
    StickyKept s t :=
  have ⟨hSeq, hIll⟩ := step_enc_sticky hr h
  ⟨hSeq, hIll, step_cks_sticky hr h⟩

theorem run_stickyKept {k : Nat} {s t : State} (hn : throughout noReset k s) (h : reaches k s t) :
    StickyKept s t := by
  induction k generalizing s with
  | zero => rw [reaches_zero] at h; exact h ▸ .refl s
  | succ k ih =>
    obtain ⟨u, hu, hk⟩ := reaches_succ.mp h
    obtain ⟨hr, hn'⟩ := (throughout_succ hu).mp hn
    exact (step_stickyKept hr hu).trans (ih hn' hk)

/-- Settles O20: every step outside reset keeps the bits, and the reset values of ENC and CKS have
none of them set. -/
theorem stickyBitsClearedOnlyByReset : Obligations.StickyBitsClearedOnlyByReset := by
  constructor
  case left =>
    intro k s t hn h
    have hKept := run_stickyKept hn h
    exact ⟨hKept.seqerr, hKept.encIllop, hKept.cksIllop, hKept.faulted⟩
  case right =>
    intro s t hr h
    obtain ⟨hEnc, -, hCks, -⟩ := units_reset (.inl ⟨hr, h⟩)
    rw [State.faulted, hEnc, hCks]
    rfl

end Sys2Proof.Machine
end

/-! PROOFS of the family 70_reset_and_hazards: the cycle of a reset, the outputs right after one
(R200, R201, R203), and when a frame is fully on the wire (R207). -/

section
namespace Sys2Proof.Machine

/-! ### Whole frames on the wire (R207) -/

theorem buf_eq_nil_of_not_busy {s : State} (h : (outputs s).encStatus.getLsbD 1 = false) :
    s.enc.buf = [] := by
  by_contra hBuf
  exact Bool.eq_false_iff.mp h (outputs_busy hBuf)

/-- Settles O31: with the buffer empty the wire is what has left, and out of a frame the invariant puts
its reader outside. -/
theorem notBusyMeansFramesSent : Obligations.NotBusyMeansFramesSent := by
  intro s hInv hFrame hBusy
  obtain ⟨hEnc, -, -⟩ := hInv
  obtain ⟨-, hScan⟩ := encInv_iff.mp hEnc
  rw [outputs_inFrame] at hFrame
  have hWire : s.wire = s.txOut := by
    rw [State.wire, buf_eq_nil_of_not_busy hBusy, List.append_nil]
  rw [← hWire, hScan, hFrame]
  rfl

/-! ### The cycle of a reset (R200, R201) -/

/-- `rst` is in the guard of every ready (R90, R112, R138, R150). -/
theorem not_ready_of_reset {s : State} (h : s.now.rst = true) :
    encCmdReady s = false ∧ rxReady s = false ∧ cksCmdReady s = false ∧ rsqCmdReady s = false := by
  simp [encCmdReady, rxReady, cksCmdReady, rsqCmdReady, h]

theorem accepted_of_reset {s : State} (h : s.now.rst = true) : accepted s = [] := by
  obtain ⟨hEnc, hDec, hCks, hRsq⟩ := not_ready_of_reset h
  have hEnc' : acceptedEnc s = [] := offered_waits (.inr hEnc)
  have hDec' : acceptedDec s = [] := offered_waits (.inr hDec)
  have hCks' : acceptedCks s = [] := offered_waits (.inr hCks)
  have hRsq' : acceptedRsq s = [] := offered_waits (.inr hRsq)
  simp [accepted, hEnc', hDec', hCks', hRsq']

/-- A reset edge leaves nothing of what the cycle offered, neither sent nor waiting (R201). -/
theorem wire_items_of_reset {s t : State} (hr : s.now.rst = true) (h : step s = .next t) :
    t.wire = [] ∧ t.items = [] := by
  obtain ⟨hEnc, hDec, -, -, hTx, hDout⟩ := units_reset (.inl ⟨hr, h⟩)
  constructor
  · rw [State.wire, hTx, hEnc]; rfl
  · rw [State.items, hDout, hDec]; rfl

/-- Settles O17. -/
theorem resetCycleAcceptsNothing : Obligations.ResetCycleAcceptsNothing := by
  intro s hr
  obtain ⟨hEnc, hDec, hCks, hRsq⟩ := not_ready_of_reset hr
  obtain ⟨t, ht⟩ := step_next s
  exact ⟨hEnc, hDec, hCks, hRsq, accepted_of_reset hr, txValid_iff s, doutValid_iff s,
    rfl, rfl, rfl, rfl, t, ht, wire_items_of_reset hr ht⟩

/-! ### Right after a reset (R203) -/

/-- Every unit has its reset value (R33). -/
structure UnitsAtReset (t : State) : Prop where
  enc : t.enc = Enc.reset
  dec : t.dec = Dec.reset
  cks : t.cks = Cks.reset t.cfg
  rsq : t.rsq = Rsq.reset

theorem unitsAtReset_of_step {s t : State} (hr : s.now.rst = true) (h : step s = .next t) :
    UnitsAtReset t := by
  obtain ⟨hEnc, hDec, hCks, hRsq, -, -⟩ := units_reset (.inl ⟨hr, h⟩)
  exact ⟨hEnc, hDec, hCks, hRsq⟩

theorem unitsAtReset_resetFor (p : Params) (is : List Inputs) :
    UnitsAtReset { State.resetFor p with inputs := is } :=
  ⟨rfl, rfl, rfl, rfl⟩

/-- Empty buffers and an idle sequencer leave only `rst` in the guards of the readies. -/
theorem UnitsAtReset.ready {t : State} (h : UnitsAtReset t) (hr : t.now.rst = false) :
    encCmdReady t = true ∧ rxReady t = true ∧ cksCmdReady t = true ∧ rsqCmdReady t = true := by
  have hBuf : t.enc.buf = [] := congrArg Enc.buf h.enc
  have hObuf : t.dec.obuf = none := congrArg Dec.obuf h.dec
  have hPhase : t.rsq.phase = .idle := congrArg Rsq.phase h.rsq
  exact ⟨by simp [encCmdReady, hr, hBuf], by simp [rxReady, hr, hObuf],
    cksCmdReady_of_noReset hr, by simp [rsqCmdReady, hr, hPhase]⟩

/-- Settles O18: either way every unit has its reset value, and the outputs are read off those. -/
theorem idleAndReadyAfterReset : Obligations.IdleAndReadyAfterReset := by
  intro t ht
  have hUnits : UnitsAtReset t := by
    rcases ht with ⟨s, hr, hStep⟩ | ⟨p, is, rfl⟩
    · exact unitsAtReset_of_step hr hStep
    · exact unitsAtReset_resetFor p is
  refine ⟨hUnits.ready, ?_⟩
  obtain ⟨hEnc, hDec, hCks, hRsq⟩ := hUnits
  simp only [outputs, txValid, doutValid, hEnc, hDec, hCks, hRsq]
  exact ⟨rfl, rfl, rfl, rfl, rfl, rfl, rfl, rfl, rfl, rfl⟩

end Sys2Proof.Machine
end
